-- ==== Sys2Proof/Word.lean ====
section
/-!
DEFINITION. The elementary values of the core: codewords and syndromes (30_encoding.md R90, R92), banks of like
registers, and the small named codes (30_encoding.md R95, R96).
-/

namespace Sys2Proof

/-- A codeword: `W` bits, bit `j` of weight `2^j` (30_encoding.md R90). -/
abbrev Codeword (W : Nat) := BitVec W

/-- A syndrome: `R` bits (30_encoding.md R92). -/
abbrev Syndrome (R : Nat) := BitVec R

/-- A fixed number `n` of like registers, `b[0]` to `b[n-1]`: plain data with its size proved once. -/
structure Bank (α : Type) (n : Nat) where
  data : List α
  size : data.length = n
  deriving DecidableEq, Repr

/-- The bank whose element `i` is `f i`. -/
def Bank.ofFn {α : Type} {n : Nat} (f : Fin n → α) : Bank α n :=
  ⟨List.ofFn f, List.length_ofFn⟩

/-- Element `i` of a bank. -/
def Bank.get {α : Type} {n : Nat} (b : Bank α n) (i : Fin n) : α :=
  b.data[i.val]'(by rw [b.size]; exact i.isLt)

/-- The bank with every element equal to `a`. -/
def Bank.const {α : Type} (n : Nat) (a : α) : Bank α n :=
  Bank.ofFn fun _ => a

/-- The values of the orchestrator's stage register (10_state.md R33), and the reserved code `0b111` that a 3-bit
register can hold and that no operation writes (30_encoding.md R98; DESIGN CHOICE, log 6). -/
inductive Stage where
  | idle
  | gen
  | flip
  | dispa
  | dispr
  | await
  | term
  | reserved7
  deriving DecidableEq, Repr

/-- The two values of a lane's stage register (10_state.md R41). -/
inductive VStage where
  | vidle
  | vred
  deriving DecidableEq, Repr

/-- Which D bits of the winner are published (00_scope.md R6, DATA_SLICE). -/
inductive DataSlice where
  | high
  | low
  deriving DecidableEq, Repr

/-- The two control words of the operation map: the orchestrator's (30_encoding.md R94) and a lane's (R96). -/
inductive Format where
  | ocw
  | lcw
  deriving DecidableEq, Repr

end Sys2Proof
end

