-- ==== Sys2Proof/Config.lean ====
section
/-!
DEFINITION. What is fixed when the core is built (00_scope.md R6): the raw parameters, the configuration with its
well-formedness (R7), the derived widths, the example configuration, and the free values of the model.
-/

namespace Sys2Proof

/-- The construction-time parameters as the collaborator supplies them, unchecked (00_scope.md R6). -/
structure Params where
  W : Nat
  R : Nat
  D : Nat
  H : List Nat
  tmoBound : Nat
  dataSlice : DataSlice
  deriving DecidableEq, Repr

/-- A well-formed configuration (00_scope.md R7). Row `r` of `H` is a `W`-bit mask, so `H[r] < 2^W` holds by its type.
It is not state: no operation changes it (10_state.md R47). -/
structure Config where
  W : Nat
  R : Nat
  D : Nat
  H : Bank (Codeword W) R
  tmoBound : Nat
  dataSlice : DataSlice
  W_pos : 1 ≤ W
  R_pos : 1 ≤ R
  D_pos : 1 ≤ D
  D_le : D ≤ W
  tmo_ok : W - 1 ≤ tmoBound
  deriving DecidableEq, Repr

namespace Config

/-- The smallest width, at least 1, that holds `v` (00_scope.md R6: TMO_W, NW). -/
def widthOf (v : Nat) : Nat := Nat.log2 v + 1

/-- TMO_W: the width of the timeout counter, the smallest that holds TMO_BOUND+2 (00_scope.md R6). -/
def tmoW (c : Config) : Nat := widthOf (c.tmoBound + 2)

/-- NW: the width of a lane's bit counter, the smallest that holds W-1, at least 1 (00_scope.md R6). -/
def nW (c : Config) : Nat := widthOf (c.W - 1)

/-- The source's example instance, which the spec calls the example configuration (00_scope.md R6), with the bound
W+2 and the slice HIGH that this hardware takes. -/
def example6 : Config where
  W := 6
  R := 3
  D := 3
  H := ⟨[0b111100, 0b001101, 0b100110], rfl⟩
  tmoBound := 8
  dataSlice := .high
  W_pos := by decide
  R_pos := by decide
  D_pos := by decide
  D_le := by decide
  tmo_ok := by decide

/-- FREE VALUE (log 5). The stimulus cycle word the host presents at edge `cycle` once its stimulus program has ended:
the spec says only that every input bit is 0 or 1 (10_state.md R30). -/
opaque freeScw (W cycle : Nat) : BitVec (W + 2)

/-- FREE VALUE (log 7). Bit `n[i]` of masked row `row` where `n[i]` is no bit position of a W-bit register: the spec
derives that this never happens and gives no value (40_parity_validator.md R125 corner case a). -/
opaque freeMaskBit (cycle lane row : Nat) : Bool

/-- FREE VALUE (log 8). What `n[i]` holds after an increment whose result its NW bits cannot hold: no run reaches it
(10_state.md R44). -/
opaque freeCount (width cycle lane : Nat) : BitVec width

/-- FREE VALUE (log 9). What `tmo` holds after an increment whose result its TMO_W bits cannot hold: the spec says it
never wraps (10_state.md R36). -/
opaque freeTmo (width cycle : Nat) : BitVec width

end Config

end Sys2Proof
end

