-- ==== Sys2Proof/Syntax.lean ====
section
/-!
DEFINITION. The operations of the core: one constructor per row of spec/opcode_table.json. No operation has an
immediate field (30_encoding.md R97): each takes its operands from the registers it names, and LOAD from the port.
-/

namespace Sys2Proof

/-- The operations the control words select: ten of the orchestrator (30_encoding.md R94), five of a lane (R96). -/
inductive Instr where
  | reset
  | load
  | idle
  | gen
  | flip
  | dispa
  | dispr
  | await
  | term
  | reservedStage7
  | vReset
  | vAbort
  | vMask
  | vRed
  | vIdle
  deriving DecidableEq, Repr

end Sys2Proof
end

