-- ==== Sys2Proof/WellFormed.lean ====
section
/-!
DEFINITION. The checks that refuse: a malformed set of construction parameters (00_scope.md R7, 60_exceptions.md R213),
a control word wider than its format (30_encoding.md R94, R96), and a literal wider than a codeword (R100).
-/

namespace Sys2Proof

/-- Why a core is not built (00_scope.md R7). -/
inductive Misconfig where
  /-- W = 0. -/
  | noWidth
  /-- R = 0. -/
  | noRows
  /-- D = 0. -/
  | noData
  /-- D > W. -/
  | dataTooWide
  /-- H does not list exactly R rows (DESIGN CHOICE, log 16: R6 writes the rows H[0..R-1]). -/
  | rowCount
  /-- Some H[r] ≥ 2^W. -/
  | rowTooWide
  /-- TMO_BOUND < W-1. -/
  | boundTooSmall
  deriving DecidableEq, Repr

/-- Build a core's configuration from raw parameters, or refuse by name (00_scope.md R7, 60_exceptions.md R213). -/
def Params.build (p : Params) : Except Misconfig Config :=
  if hW : 1 ≤ p.W then
    if hR : 1 ≤ p.R then
      if hD : 1 ≤ p.D then
        if hDW : p.D ≤ p.W then
          if p.H.length = p.R then
            if p.H.all (fun h => decide (h < 2 ^ p.W)) then
              if hT : p.W - 1 ≤ p.tmoBound then
                .ok
                  { W := p.W, R := p.R, D := p.D
                    H := Bank.ofFn fun r => BitVec.ofNat p.W (p.H.getD r.val 0)
                    tmoBound := p.tmoBound, dataSlice := p.dataSlice
                    W_pos := hW, R_pos := hR, D_pos := hD, D_le := hDW, tmo_ok := hT }
              else .error .boundTooSmall
            else .error .rowTooWide
          else .error .rowCount
        else .error .dataTooWide
      else .error .noData
    else .error .noRows
  else .error .noWidth

/-- The raw parameters a configuration was built from. -/
def Config.params (c : Config) : Params where
  W := c.W
  R := c.R
  D := c.D
  H := c.H.data.map BitVec.toNat
  tmoBound := c.tmoBound
  dataSlice := c.dataSlice

/-- The number of bits of a control word (30_encoding.md R94: 5; R96: 4). -/
def Format.bits : Format → Nat
  | .ocw => 5
  | .lcw => 4

/-- A number fits its format's control word. -/
def Format.fits (f : Format) (w : Nat) : Bool := decide (w < 2 ^ f.bits)

/-- Well-formedness of an operation. No operation has a field, and illegal encodings do not exist
(30_encoding.md R98), so every one is well formed; each is named so that a new one cannot slip past. -/
def Instr.wf : Instr → Bool
  | .reset => true
  | .load => true
  | .idle => true
  | .gen => true
  | .flip => true
  | .dispa => true
  | .dispr => true
  | .await => true
  | .term => true
  | .reservedStage7 => true
  | .vReset => true
  | .vAbort => true
  | .vMask => true
  | .vRed => true
  | .vIdle => true

end Sys2Proof
end

