-- ==== Sys2Proof/Decode.lean ====
section
/-!
DEFINITION. The operation map: stage codes (30_encoding.md R95), control words (R94, R96), their decoder, total on every
number and rejecting by name, and the encoder, both read from one table of rows; and the stimulus cycle word (R99).
-/

namespace Sys2Proof

/-- The 3-bit code of a stage (30_encoding.md R95). -/
def Stage.code : Stage → BitVec 3
  | .idle => 0b000
  | .gen => 0b001
  | .flip => 0b010
  | .dispa => 0b011
  | .dispr => 0b100
  | .await => 0b101
  | .term => 0b110
  | .reserved7 => 0b111

/-- The stage of a 3-bit code (30_encoding.md R95, R98). -/
def Stage.ofCode (b : BitVec 3) : Stage :=
  match b.toNat with
  | 0 => .idle
  | 1 => .gen
  | 2 => .flip
  | 3 => .dispa
  | 4 => .dispr
  | 5 => .await
  | 6 => .term
  | _ => .reserved7

/-- The bit of a lane stage: VIDLE=0, VRED=1 (30_encoding.md R96). -/
def VStage.code : VStage → Bool
  | .vidle => false
  | .vred => true

/-- The lane stage of a bit (30_encoding.md R96). -/
def VStage.ofCode : Bool → VStage
  | false => .vidle
  | true => .vred

/-- OCW = {rst, start, stage[2:0]} (30_encoding.md R94). -/
def ocw (rst start : Bool) (stage : Stage) : BitVec 5 :=
  BitVec.ofBool rst ++ BitVec.ofBool start ++ stage.code

/-- LCW = {rst, start, vstart, vstage[i]} (30_encoding.md R96). -/
def lcw (rst start vstart : Bool) (vstage : VStage) : BitVec 4 :=
  BitVec.ofBool rst ++ BitVec.ofBool start ++ BitVec.ofBool vstart ++ BitVec.ofBool vstage.code

/-- One row of the operation map: the words `w` with `w & mask = value` select `op`. -/
structure Row where
  mask : Nat
  value : Nat
  op : Instr
  deriving DecidableEq, Repr

/-- A row selects a word. -/
def Row.selects (row : Row) (w : Nat) : Bool := w &&& row.mask == row.value

/-- The operation map, in the spec's order, first match wins (30_encoding.md R94, R96; opcode_table.json). -/
def opTable : Format → List Row
  | .ocw =>
    [ ⟨0b10000, 0b10000, .reset⟩, ⟨0b11000, 0b01000, .load⟩, ⟨0b11111, 0b00000, .idle⟩, ⟨0b11111, 0b00001, .gen⟩,
      ⟨0b11111, 0b00010, .flip⟩, ⟨0b11111, 0b00011, .dispa⟩, ⟨0b11111, 0b00100, .dispr⟩, ⟨0b11111, 0b00101, .await⟩,
      ⟨0b11111, 0b00110, .term⟩, ⟨0b11111, 0b00111, .reservedStage7⟩ ]
  | .lcw =>
    [ ⟨0b1000, 0b1000, .vReset⟩, ⟨0b1100, 0b0100, .vAbort⟩, ⟨0b1110, 0b0010, .vMask⟩, ⟨0b1111, 0b0001, .vRed⟩,
      ⟨0b1111, 0b0000, .vIdle⟩ ]

/-- Why a number is no control word. -/
inductive DecodeError where
  /-- The number has a bit at or above the format's width. -/
  | tooWide
  /-- No row of the operation map selects the word: no word of either format meets this. -/
  | noRow
  deriving DecidableEq, Repr

/-- The operation a control word selects (30_encoding.md R94, R96). -/
def decode (f : Format) (w : Nat) : Except DecodeError Instr :=
  if f.fits w then
    match (opTable f).find? (fun row => row.selects w) with
    | some row => .ok row.op
    | none => .error .noRow
  else .error .tooWide

/-- The format an operation's control word has. -/
def Instr.format : Instr → Format
  | .reset | .load | .idle | .gen | .flip | .dispa | .dispr | .await | .term | .reservedStage7 => .ocw
  | .vReset | .vAbort | .vMask | .vRed | .vIdle => .lcw

/-- The control word of an operation, its don't-care bits written 0 (DESIGN CHOICE, log 12): its row's value. -/
def encode (i : Instr) : Format × Nat :=
  (i.format, (((opTable i.format).find? fun row => row.op == i).map (·.value)).getD 0)

/-- The host's question: the instruction the decoder reads from a row's word. `nbits` tells the formats apart: 4 is a
lane control word, 5 or a whole byte an orchestrator control word (DESIGN CHOICE, log 11). -/
def formatOfBits (nbits : Nat) : Format := if nbits = 4 then .lcw else .ocw

/-- The instruction the decoder reads from an instruction whose bits are `w`; none where it refuses. -/
def decodeTableWord (nbits w : Nat) : Option Instr := (decode (formatOfBits nbits) w).toOption

/-- SCW = {rst, start, data_input[W-1:0]}: bit W+1 is rst, bit W is start (30_encoding.md R99). -/
def scw {W : Nat} (rst start : Bool) (data : Codeword W) : BitVec (W + 2) :=
  (BitVec.ofBool rst ++ BitVec.ofBool start ++ data).cast (Nat.add_comm 2 W)

/-- The rst bit of a stimulus cycle word (30_encoding.md R99). -/
def scwRst {W : Nat} (w : BitVec (W + 2)) : Bool := w.getLsbD (W + 1)

/-- The start bit of a stimulus cycle word (30_encoding.md R99). -/
def scwStart {W : Nat} (w : BitVec (W + 2)) : Bool := w.getLsbD W

/-- The data_input bits of a stimulus cycle word, all W of them (30_encoding.md R97, R99). -/
def scwData {W : Nat} (w : BitVec (W + 2)) : Codeword W := w.setWidth W

end Sys2Proof
end

