-- ==== Sys2Proof/Machine/State.lean ====
section
/-!
DEFINITION. The state of the core (10_state.md R50), its two reasons to stop, and the state right after reset
(70_reset_and_hazards.md R240).
-/

namespace Sys2Proof.Machine

/-- The core raises no exception and takes no trap, and every edge has a next state (60_exceptions.md R210): there is
no reason to stop with a fault, so this type has no constructor (log 13). -/
inductive Fault where
  deriving DecidableEq, Repr

/-- Reasons the model gives no meaning. -/
inductive Refusal where
  /-- Raised by an arm of `exec` whose instruction has no meaning yet. Safe: the run stops. No arm raises it now. -/
  | notModelled (mnemonic : String)
  deriving DecidableEq, Repr

/-- The registers of one ParityValidator lane (10_state.md R41 to R46). -/
structure Lane (c : Config) where
  /-- `vstage[i]` (R41). -/
  vstage : VStage
  /-- `m[i][0..R-1]`, the masked rows (R42). -/
  m : Bank (Codeword c.W) c.R
  /-- `acc[i][0..R-1]`, the row accumulators (R43). -/
  acc : Bank Bool c.R
  /-- `n[i]`, the bit counter (R44). -/
  n : BitVec c.nW
  /-- `syn[i]`, the published syndrome (R45). -/
  syn : Syndrome c.R
  /-- `vdone[i]`, the completion signal (R46). -/
  vdone : Bool
  deriving DecidableEq, Repr

/-- The registers of a core built with configuration `c` (10_state.md R50). -/
structure Regs (c : Config) where
  /-- `hyp[0..W]`, the hypothesis slots (R32). -/
  hyp : Bank (Codeword c.W) (c.W + 1)
  /-- `stage` (R33). -/
  stage : Stage
  /-- `vstart`, the dispatch pulse (R35). -/
  vstart : Bool
  /-- `tmo`, the timeout counter (R36). -/
  tmo : BitVec c.tmoW
  /-- `done`, driving the output of that name (R31, R37). -/
  done : Bool
  /-- `success`, driving the output of that name (R31, R38). -/
  success : Bool
  /-- `dout`, driving `data_output` (R31, R39). -/
  dout : BitVec c.D
  /-- The registers of lanes 0 to W (R41 to R46). -/
  lanes : Bank (Lane c) (c.W + 1)
  deriving DecidableEq, Repr

/-- The machine: its registers, beside the configuration they are built with, and the model's own two fields for the
world outside. `cfg` is the step function's parameter, not a register (20_memory.md R71; log 1). -/
structure State where
  /-- The configuration (00_scope.md R6); no step changes it. -/
  cfg : Config
  /-- Every register of the core. -/
  regs : Regs cfg
  /-- The stimulus cycle words still to be presented, the next edge's first (30_encoding.md R99; log 4). -/
  stim : List (BitVec (cfg.W + 2))
  /-- The number of edges taken: what the free values are applied to (log 5). -/
  cycle : Nat
  deriving DecidableEq, Repr

/-- The state with other registers, everything else as it is. -/
@[reducible] def State.withRegs (s : State) (r : Regs s.cfg) : State := ⟨s.cfg, r, s.stim, s.cycle⟩

/-- The state `k` edges later, with registers `r`: `k` stimulus cycle words have been presented. -/
@[reducible] def State.after (s : State) (k : Nat) (r : Regs s.cfg) : State := ⟨s.cfg, r, s.stim.drop k, s.cycle + k⟩

/-- The state with another stimulus program waiting to be presented (30_encoding.md R99). -/
@[reducible] def State.withStim (s : State) (stim : List (BitVec (s.cfg.W + 2))) : State := ⟨s.cfg, s.regs, stim, s.cycle⟩

/-- A lane right after reset (70_reset_and_hazards.md R240); `m`, `acc` and `n`, which the spec leaves unspecified
(10_state.md R49), hold zero (DESIGN CHOICE, log 2). -/
def Lane.atReset (c : Config) : Lane c where
  vstage := .vidle
  m := Bank.const c.R 0
  acc := Bank.const c.R false
  n := 0
  syn := 0
  vdone := false

/-- The registers right after reset (70_reset_and_hazards.md R240); `hyp`, which the spec leaves unspecified
(10_state.md R49), holds zero (DESIGN CHOICE, log 2). -/
def Regs.atReset (c : Config) : Regs c where
  hyp := Bank.const (c.W + 1) 0
  stage := .idle
  vstart := false
  tmo := 0
  done := false
  success := false
  dout := 0
  lanes := Bank.const (c.W + 1) (Lane.atReset c)

/-- The machine right after reset, built with configuration `c`, no stimulus waiting. -/
def State.resetWith (c : Config) : State := ⟨c, Regs.atReset c, [], 0⟩

/-- The machine right after reset, built with the example configuration (DESIGN CHOICE, log 1). -/
def State.reset : State := State.resetWith Config.example6

end Sys2Proof.Machine
end

