-- ==== Sys2Proof/Machine/Ops.lean ====
section
/-!
DEFINITION. The shared operations: GF(2) primitives (00_scope.md R10), the syndrome function (40_parity_validator.md
R120), register writes over the hypothesis slots and the lanes, and the two counters. There is no memory operation
(20_memory.md R70) and no exception entry or return (60_exceptions.md R210, R216, R217) to write.
-/

namespace Sys2Proof.Machine

/-- The XOR of bits `k-1` to `0` of `v`: a row accumulator after `k` bits (40_parity_validator.md R129). -/
def xorBits {w : Nat} (v : BitVec w) : Nat → Bool
  | 0 => false
  | k + 1 => xorBits v k ^^ v.getLsbD k

/-- The XOR of all bits of `v` (00_scope.md R10). -/
def parity {w : Nat} (v : BitVec w) : Bool := xorBits v w

/-- `v` with bit `i` inverted: `v ^ (1 << i)` (00_scope.md R10). -/
def flip {w : Nat} (v : BitVec w) (i : Nat) : BitVec w := v ^^^ (1#w <<< i)

/-- The R-bit value whose bit `R-1-r` is element `r`: the sum of `a[r] * 2^(R-1-r)` (30_encoding.md R92,
40_parity_validator.md R125). -/
def packRows {R : Nat} (a : Bank Bool R) : Syndrome R :=
  BitVec.ofNat R (a.data.foldl (fun s b => 2 * s + b.toNat) 0)

/-- The syndrome of a codeword (40_parity_validator.md R120). -/
def syndrome (c : Config) (v : Codeword c.W) : Syndrome c.R :=
  packRows (Bank.ofFn fun r => parity (v &&& c.H.get r))

/-- Column `j` of the matrix, `syndrome(1 << j)` (42_arbitration.md R188). -/
def col (c : Config) (j : Nat) : Syndrome c.R := syndrome c (1#c.W <<< j)

/-- Write slots `0..W-1` of the hypothesis slots, slot `i` with `f i`; slot W is not written (41_orchestrator.md R153,
R154). -/
def writeSlots {c : Config} (hyp : Bank (Codeword c.W) (c.W + 1)) (f : Fin (c.W + 1) → Codeword c.W) :
    Bank (Codeword c.W) (c.W + 1) :=
  Bank.ofFn fun i => if i.val < c.W then f i else hyp.get i

/-- Write slot W of the hypothesis slots, the received codeword's; no other slot is written (41_orchestrator.md R151). -/
def writeReceived {c : Config} (hyp : Bank (Codeword c.W) (c.W + 1)) (x : Codeword c.W) :
    Bank (Codeword c.W) (c.W + 1) :=
  Bank.ofFn fun i => if i.val < c.W then hyp.get i else x

/-- Every lane `i` performs `f i` on its own registers; nothing else is written (40_parity_validator.md R122). -/
def Regs.mapLanes {c : Config} (r : Regs c) (f : Fin (c.W + 1) → Lane c → Lane c) : Regs c :=
  { r with lanes := Bank.ofFn fun i => f i (r.lanes.get i) }

/-- `n[i] + 1` in the counter's NW bits (40_parity_validator.md R125); a free value where they cannot hold it (log 8). -/
def nextCount (c : Config) (cycle lane : Nat) (n : BitVec c.nW) : BitVec c.nW :=
  if n.toNat + 1 < 2 ^ c.nW then n + 1 else Config.freeCount c.nW cycle lane

/-- `tmo + 1` in the counter's TMO_W bits (42_arbitration.md R182); a free value where they cannot hold it (log 9). -/
def nextTmo (c : Config) (cycle : Nat) (t : BitVec c.tmoW) : BitVec c.tmoW :=
  if t.toNat + 1 < 2 ^ c.tmoW then t + 1 else Config.freeTmo c.tmoW cycle

end Sys2Proof.Machine
end

