-- ==== Sys2Proof/Machine/Operands.lean ====
section
/-!
DEFINITION. Where the operations take their operands from (30_encoding.md R97): the input ports at this edge (10_state.md
R30), the received codeword, the masked-row bit a reduction step folds, and the published slice of a hypothesis.
-/

namespace Sys2Proof.Machine

/-- The stimulus cycle word presented at this edge: the next of the program (30_encoding.md R99), a free value once the
program has ended (log 5). -/
def State.scw (s : State) : BitVec (s.cfg.W + 2) :=
  match s.stim with
  | w :: _ => w
  | [] => Config.freeScw s.cfg.W s.cycle

/-- Input `rst` at this edge (10_state.md R30). -/
def State.rst (s : State) : Bool := scwRst s.scw

/-- Input `start` at this edge (10_state.md R30). -/
def State.start (s : State) : Bool := scwStart s.scw

/-- Input `data_input` at this edge (10_state.md R30). -/
def State.dataInput (s : State) : Codeword s.cfg.W := scwData s.scw

/-- The received codeword, `hyp[W]` (10_state.md R32). -/
def Regs.received {c : Config} (r : Regs c) : Codeword c.W := r.hyp.get (Fin.last c.W)

/-- Bit `n` of masked row `row` of lane `lane` (40_parity_validator.md R125); a free value where the row has no bit
`n` (log 7). -/
def maskBit (c : Config) (cycle lane row : Nat) (m : Codeword c.W) (n : Nat) : Bool :=
  if n < c.W then m.getLsbD n else Config.freeMaskBit cycle lane row

/-- The published slice: bits [W-1:W-D] (42_arbitration.md R185), or bits [D-1:0] where the parameter DATA_SLICE is
LOW (00_scope.md R6). -/
def slice (c : Config) (v : Codeword c.W) : BitVec c.D :=
  match c.dataSlice with
  | .high => v.extractLsb' (c.W - c.D) c.D
  | .low => v.extractLsb' 0 c.D

end Sys2Proof.Machine
end

