-- ==== Sys2Proof/Machine/Flags.lean ====
section
/-!
DEFINITION. The predicates AWAIT tests (42_arbitration.md R180, R181, R183) and the outputs the host reads (10_state.md
R31).
-/

namespace Sys2Proof.Machine

/-- `vdone[0] & ... & vdone[W]` (42_arbitration.md R180). -/
def allDone {c : Config} (r : Regs c) : Bool := r.lanes.data.all (·.vdone)

/-- `zero[i] = (syn[i] == 0^R)` (42_arbitration.md R180). -/
def zero {c : Config} (r : Regs c) (i : Fin (c.W + 1)) : Bool := (r.lanes.get i).syn == 0

/-- The priority scan over indices `0` to `k-1`, ascending, a later match overwriting an earlier one
(42_arbitration.md R181). -/
def scan {n : Nat} (p : Fin n → Bool) : (k : Nat) → k ≤ n → Option (Fin n)
  | 0, _ => none
  | k + 1, h => if p ⟨k, h⟩ then some ⟨k, h⟩ else scan p k (Nat.le_of_succ_le h)

/-- The winner, if some hypothesis has a zero syndrome (42_arbitration.md R181). -/
def winner {c : Config} (r : Regs c) : Option (Fin (c.W + 1)) := scan (zero r) (c.W + 1) (Nat.le_refl _)

/-- The success condition of AWAIT, `allDone and found`, with the winner (42_arbitration.md R182). -/
def arbitrate {c : Config} (r : Regs c) : Option (Fin (c.W + 1)) := if allDone r then winner r else none

/-- The timeout condition, `t > TMO_BOUND` on the pre-edge counter (42_arbitration.md R183). -/
def timedOut {c : Config} (r : Regs c) : Bool := decide (c.tmoBound < r.tmo.toNat)

/-- What the host sees in a cycle (10_state.md R31). -/
structure Outputs (D : Nat) where
  done : Bool
  success : Bool
  dataOutput : BitVec D
  deriving DecidableEq, Repr

/-- The outputs are the registers of those names (10_state.md R31). -/
def Regs.outputs {c : Config} (r : Regs c) : Outputs c.D := ⟨r.done, r.success, r.dout⟩

end Sys2Proof.Machine
end

