-- ==== Sys2Proof/Machine/Lanes.lean ====
section
/-!
DEFINITION. The five lane operations (40_parity_validator.md R124 to R127, 70_reset_and_hazards.md R240). Each is
written for one lane; the meaning of the operation is that every lane performs it on its own registers (R122, R123).
-/

namespace Sys2Proof.Machine

/-- V_RESET on one lane: the lane part of RESET (70_reset_and_hazards.md R240). -/
def Lane.reset {c : Config} (l : Lane c) : Lane c :=
  { l with vstage := .vidle, syn := 0, vdone := false }

/-- V_ABORT on one lane (40_parity_validator.md R127). -/
def Lane.abort {c : Config} (l : Lane c) : Lane c :=
  { l with vstage := .vidle, vdone := false, syn := 0 }

/-- The masked rows `candidate & H[r]` (40_parity_validator.md R124). -/
def maskedRows (c : Config) (candidate : Codeword c.W) : Bank (Codeword c.W) c.R :=
  Bank.ofFn fun r => candidate &&& c.H.get r

/-- V_MASK on one lane with its candidate (40_parity_validator.md R124). -/
def Lane.mask {c : Config} (candidate : Codeword c.W) (l : Lane c) : Lane c :=
  let rows := maskedRows c candidate
  let bit0 : Bank Bool c.R := Bank.ofFn fun r => (rows.get r).getLsbD 0
  if c.W = 1 then
    { l with m := rows, acc := bit0, syn := packRows bit0, vdone := true, vstage := .vidle }
  else
    { l with m := rows, acc := bit0, n := 1, vdone := false, vstage := .vred }

/-- The row accumulators after folding bit `n[i]` of every masked row (40_parity_validator.md R125). -/
def Lane.folded {c : Config} (cycle i : Nat) (l : Lane c) : Bank Bool c.R :=
  Bank.ofFn fun r => l.acc.get r ^^ maskBit c cycle i r.val (l.m.get r) l.n.toNat

/-- V_RED on lane `i` (40_parity_validator.md R125). -/
def Lane.reduce {c : Config} (cycle i : Nat) (l : Lane c) : Lane c :=
  let a := l.folded cycle i
  if l.n.toNat = c.W - 1 then
    { l with acc := a, syn := packRows a, vdone := true, vstage := .vidle }
  else
    { l with acc := a, n := nextCount c cycle i l.n }

/-- V_RESET: every lane takes its reset values (70_reset_and_hazards.md R240). -/
def execVReset (s : State) : Host.Outcome State Fault Refusal :=
  .next (s.withRegs (s.regs.mapLanes fun _ => Lane.reset))

/-- V_ABORT: every lane discards its work (40_parity_validator.md R127). -/
def execVAbort (s : State) : Host.Outcome State Fault Refusal :=
  .next (s.withRegs (s.regs.mapLanes fun _ => Lane.abort))

/-- V_MASK: every lane `i` latches `hyp[i] & H` and starts its reduction (40_parity_validator.md R124). -/
def execVMask (s : State) : Host.Outcome State Fault Refusal :=
  .next (s.withRegs (s.regs.mapLanes fun i => Lane.mask (s.regs.hyp.get i)))

/-- V_RED: every lane folds one bit position (40_parity_validator.md R125). -/
def execVRed (s : State) : Host.Outcome State Fault Refusal :=
  .next (s.withRegs (s.regs.mapLanes fun i => Lane.reduce s.cycle i.val))

/-- V_IDLE: no register is written (40_parity_validator.md R126). -/
def execVIdle (s : State) : Host.Outcome State Fault Refusal := .next s

end Sys2Proof.Machine
end

