-- ==== Sys2Proof/Machine/Orchestrator.lean ====
section
/-!
DEFINITION. The orchestrator's operations from RESET to DISPR (70_reset_and_hazards.md R240, 41_orchestrator.md R151 to
R156). What the lanes do at the same edge is their own operation (41_orchestrator.md R150), but for RESET, whose rule
writes the lanes' registers too.
-/

namespace Sys2Proof.Machine

/-- RESET's writes (70_reset_and_hazards.md R240): `hyp`, `m`, `acc` and `n` are not written. -/
def Regs.reset {c : Config} (r : Regs c) : Regs c :=
  { r.mapLanes fun _ => Lane.reset with
    stage := .idle, vstart := false, tmo := 0, done := false, success := false, dout := 0 }

/-- LOAD's writes (41_orchestrator.md R151): `hyp[0..W-1]` are not written. -/
def Regs.load {c : Config} (x : Codeword c.W) (r : Regs c) : Regs c :=
  { r with
    hyp := writeReceived r.hyp x, dout := 0, done := false, success := false, tmo := 0, vstart := false
    stage := .gen }

/-- GEN's writes (41_orchestrator.md R153). -/
def Regs.gen {c : Config} (r : Regs c) : Regs c :=
  { r with hyp := writeSlots r.hyp fun _ => r.received, stage := .flip }

/-- FLIP's writes (41_orchestrator.md R154). -/
def Regs.flip {c : Config} (r : Regs c) : Regs c :=
  { r with hyp := writeSlots r.hyp fun i => Machine.flip (r.hyp.get i) i.val, stage := .dispa }

/-- DISPA's writes (41_orchestrator.md R155). -/
def Regs.dispa {c : Config} (r : Regs c) : Regs c := { r with vstart := true, stage := .dispr }

/-- DISPR's writes (41_orchestrator.md R156). -/
def Regs.dispr {c : Config} (r : Regs c) : Regs c := { r with vstart := false, stage := .await }

/-- RESET: the synchronous reset (70_reset_and_hazards.md R240), its lane part included (log 17). -/
def execReset (s : State) : Host.Outcome State Fault Refusal := .next (s.withRegs s.regs.reset)

/-- LOAD: latch the received codeword, sampled from `data_input` at this edge, and clear the working state
(41_orchestrator.md R151). -/
def execLoad (s : State) : Host.Outcome State Fault Refusal := .next (s.withRegs (s.regs.load s.dataInput))

/-- IDLE: no register is written; `stage` stays as it is (41_orchestrator.md R152). -/
def execIdle (s : State) : Host.Outcome State Fault Refusal := .next s

/-- GEN: copy slot W into slots 0 to W-1 (41_orchestrator.md R153). -/
def execGen (s : State) : Host.Outcome State Fault Refusal := .next (s.withRegs s.regs.gen)

/-- FLIP: invert bit `i` of slot `i` (41_orchestrator.md R154). -/
def execFlip (s : State) : Host.Outcome State Fault Refusal := .next (s.withRegs s.regs.flip)

/-- DISPA: assert the dispatch pulse (41_orchestrator.md R155). -/
def execDispa (s : State) : Host.Outcome State Fault Refusal := .next (s.withRegs s.regs.dispa)

/-- DISPR: release the dispatch pulse (41_orchestrator.md R156). -/
def execDispr (s : State) : Host.Outcome State Fault Refusal := .next (s.withRegs s.regs.dispr)

end Sys2Proof.Machine
end

