-- ==== Sys2Proof/Machine/Arbitration.lean ====
section
/-!
DEFINITION. The orchestrator's waiting and holding operations: AWAIT and TERM (42_arbitration.md R182, R184) and the
reserved stage code of a 3-bit build (30_encoding.md R98).
-/

namespace Sys2Proof.Machine

/-- AWAIT's success branch with winner `w` (42_arbitration.md R182). -/
def Regs.succeed {c : Config} (cycle : Nat) (w : Fin (c.W + 1)) (r : Regs c) : Regs c :=
  { r with
    tmo := nextTmo c cycle r.tmo, dout := slice c (r.hyp.get w), success := true, done := true, stage := .term }

/-- AWAIT's timeout branch (42_arbitration.md R182, R183): `success` and `dout` are not written. -/
def Regs.timeOut {c : Config} (cycle : Nat) (r : Regs c) : Regs c :=
  { r with tmo := nextTmo c cycle r.tmo, done := true, stage := .term }

/-- AWAIT's waiting branch (42_arbitration.md R182). -/
def Regs.keepWaiting {c : Config} (cycle : Nat) (r : Regs c) : Regs c :=
  { r with tmo := nextTmo c cycle r.tmo, stage := .await }

/-- AWAIT's writes (42_arbitration.md R182): the success branch first, then the timeout, then waiting. -/
def Regs.await {c : Config} (cycle : Nat) (r : Regs c) : Regs c :=
  match arbitrate r with
  | some w => r.succeed cycle w
  | none => if timedOut r then r.timeOut cycle else r.keepWaiting cycle

/-- AWAIT: wait for the lanes, arbitrate, or time out (42_arbitration.md R182). -/
def execAwait (s : State) : Host.Outcome State Fault Refusal := .next (s.withRegs (s.regs.await s.cycle))

/-- TERM: no register is written; `stage` stays as it is (42_arbitration.md R184). -/
def execTerm (s : State) : Host.Outcome State Fault Refusal := .next s

/-- The reserved code 0b111 of a 3-bit build: treated as IDLE, every register held (30_encoding.md R98; log 6). -/
def execReservedStage7 (s : State) : Host.Outcome State Fault Refusal := .next s

end Sys2Proof.Machine
end

