-- ==== Sys2Proof/Machine/Dispatch.lean ====
section
/-! DEFINITION. From an operation to its meaning: one arm per constructor of Instr. -/

namespace Sys2Proof.Machine

def exec (i : Instr) (s : State) : Host.Outcome State Fault Refusal :=
  match i with
  | .reset => Sys2Proof.Machine.execReset s
  | .load => Sys2Proof.Machine.execLoad s
  | .idle => Sys2Proof.Machine.execIdle s
  | .gen => Sys2Proof.Machine.execGen s
  | .flip => Sys2Proof.Machine.execFlip s
  | .dispa => Sys2Proof.Machine.execDispa s
  | .dispr => Sys2Proof.Machine.execDispr s
  | .await => Sys2Proof.Machine.execAwait s
  | .term => Sys2Proof.Machine.execTerm s
  | .reservedStage7 => Sys2Proof.Machine.execReservedStage7 s
  | .vReset => Sys2Proof.Machine.execVReset s
  | .vAbort => Sys2Proof.Machine.execVAbort s
  | .vMask => Sys2Proof.Machine.execVMask s
  | .vRed => Sys2Proof.Machine.execVRed s
  | .vIdle => Sys2Proof.Machine.execVIdle s

end Sys2Proof.Machine
end

