-- ==== Sys2Proof/Machine/Edge.lean ====
section
/-!
DEFINITION. One clock edge around the operations: the control words the inputs and registers form (30_encoding.md R94,
R96), the operations they select, and the merge of what the agents write, each having read pre-edge values
(00_scope.md R11, 41_orchestrator.md R150). Also the host's placing of one control word to run next.
-/

namespace Sys2Proof.Machine

/-- The orchestrator's control word at this edge (30_encoding.md R94). -/
def State.ocw (s : State) : BitVec 5 := Sys2Proof.ocw s.rst s.start s.regs.stage

/-- Lane `i`'s control word at this edge (30_encoding.md R96). -/
def State.lcw (s : State) (i : Fin (s.cfg.W + 1)) : BitVec 4 :=
  Sys2Proof.lcw s.rst s.start s.regs.vstart (s.regs.lanes.get i).vstage

/-- The operation a control word selects. Every word of either format selects one (Laws: `decode_ocw_ok`,
`decode_lcw_ok`), so the hold given in the error case is never taken. -/
def selected (f : Format) (w : Nat) : Instr :=
  match decode f w with
  | .ok i => i
  | .error _ =>
    match f with
    | .ocw => .idle
    | .lcw => .vIdle

/-- The orchestrator's operation at this edge (41_orchestrator.md R150). -/
def State.orchInstr (s : State) : Instr := selected .ocw s.ocw.toNat

/-- Lane `i`'s operation at this edge (41_orchestrator.md R150). -/
def State.laneInstr (s : State) (i : Fin (s.cfg.W + 1)) : Instr := selected .lcw (s.lcw i).toNat

/-- The registers an operation left, read in configuration `c`. Every operation keeps the configuration (Laws:
`exec_total`), so the case of another one is never taken. -/
def regsOr {c : Config} (r : Regs c) : Host.Outcome State Fault Refusal → Regs c
  | .next t => if h : t.cfg = c then h ▸ t.regs else r
  | .fault _ => r
  | .refused _ => r

/-- The first operation, in lane order, that did not answer a next state. -/
def firstStop (o : List (Host.Outcome State Fault Refusal)) : Option (Host.Outcome State Fault Refusal) :=
  match o with
  | [] => none
  | .next _ :: rest => firstStop rest
  | .fault f :: _ => some (.fault f)
  | .refused r :: _ => some (.refused r)

/-- All register writes of one edge: the orchestrator's registers as its operation left them, lane `i`'s registers as
lane `i`'s own operation left them (40_parity_validator.md R122: each lane writes only its own registers). -/
def merge {c : Config} (pre : Regs c) (orch : Host.Outcome State Fault Refusal)
    (lane : Fin (c.W + 1) → Host.Outcome State Fault Refusal) : Regs c :=
  { regsOr pre orch with lanes := Bank.ofFn fun i => (regsOr pre (lane i)).lanes.get i }

/-- One edge, given what each agent's operation answers on the pre-edge state: stop where one stops, else the merged
registers, one stimulus cycle word on and one edge later. -/
def State.edge (s : State) (orch : Host.Outcome State Fault Refusal)
    (lane : Fin (s.cfg.W + 1) → Host.Outcome State Fault Refusal) : Host.Outcome State Fault Refusal :=
  (firstStop (orch :: List.ofFn lane)).getD (.next (s.after 1 (merge s.regs orch lane)))

/-- The state whose next edge sees these inputs: they replace the next stimulus cycle word. -/
@[reducible] def State.present (s : State) (rst start : Bool) (data : Codeword s.cfg.W) : State :=
  s.withStim (Sys2Proof.scw rst start data :: s.stim.tail)

/-- Set `vstart` and every lane's `vstage`, the register bits of a lane control word. -/
def Regs.withLaneBits {c : Config} (r : Regs c) (vstart : Bool) (v : VStage) : Regs c :=
  { r.mapLanes (fun _ l => { l with vstage := v }) with vstart := vstart }

/-- The register bits of control word `w`, set: `stage`, or `vstart` and every lane's `vstage`. -/
def placedRegs {c : Config} (f : Format) (w : Nat) (r : Regs c) : Regs c :=
  match f with
  | .ocw => { r with stage := Stage.ofCode (BitVec.ofNat 3 w) }
  | .lcw => r.withLaneBits (w.testBit 1) (VStage.ofCode (w.testBit 0))

/-- The position of the start bit in a control word (30_encoding.md R94: bit 3; R96: bit 2); rst is the next bit. -/
def Format.startBit : Format → Nat
  | .ocw => 3
  | .lcw => 2

/-- Place a control word so that the next edge performs exactly its operation: the input bits on the ports with
data_input 0, the register bits in the registers the word is made of (log 10, log 11). -/
@[reducible] def State.placeControlWord (s : State) (nbits w : Nat) : State :=
  (s.withRegs (placedRegs (formatOfBits nbits) w s.regs)).present
    (w.testBit (Format.startBit (formatOfBits nbits) + 1)) (w.testBit (Format.startBit (formatOfBits nbits))) 0

end Sys2Proof.Machine
end

