-- ==== Sys2Proof/Machine/Step.lean ====
section
/-! DEFINITION. One step of the machine is one rising edge of the clock (00_scope.md R11, 20_memory.md R77). -/

namespace Sys2Proof.Machine

/-- At every edge the orchestrator performs the one operation its control word selects and each lane the one its own
control word selects, all on the pre-edge state (41_orchestrator.md R150). -/
def step (s : State) : Host.Outcome State Fault Refusal :=
  s.edge (exec s.orchInstr s) fun i => exec (s.laneInstr i) s

/-- The state whose next step performs the operation of control word `w` (log 10). -/
@[reducible] def State.withFetchWord (s : State) (nbits w : Nat) : State := s.placeControlWord nbits w

end Sys2Proof.Machine
end

