-- ==== Sys2Proof/Machine/Stimulus.lean ====
section
/-!
DEFINITION. The stimulus notation (30_encoding.md R100, R101): statements, their well-formedness, and the stimulus cycle
words each presents.
-/

namespace Sys2Proof.Machine

/-- The statements of the stimulus notation (30_encoding.md R100) and the pseudo-statements (R101). Literals are
numbers; `Stmt.wf` says which are W-bit literals. -/
inductive Stmt where
  | reset
  | start (x : Nat)
  | wait (k : Nat)
  | waitx (k x : Nat)
  | hold (x k : Nat)
  | decode (x : Nat)
  | decodeFast (x : Nat)
  deriving DecidableEq, Repr

/-- The literal of a statement is a W-bit literal (30_encoding.md R100). -/
def Stmt.wf (W : Nat) : Stmt → Bool
  | .reset => true
  | .start x => decide (x < 2 ^ W)
  | .wait _ => true
  | .waitx _ x => decide (x < 2 ^ W)
  | .hold x _ => decide (x < 2 ^ W)
  | .decode x => decide (x < 2 ^ W)
  | .decodeFast x => decide (x < 2 ^ W)

/-- The stimulus cycle word of `RESET` (30_encoding.md R100). -/
def resetWord (W : Nat) : BitVec (W + 2) := Sys2Proof.scw true false 0

/-- The stimulus cycle word of `START x` (30_encoding.md R100). -/
def startWord {W : Nat} (x : Codeword W) : BitVec (W + 2) := Sys2Proof.scw false true x

/-- The stimulus cycle word of one cycle of `WAITX k, x` (30_encoding.md R100). -/
def waitWord {W : Nat} (x : Codeword W) : BitVec (W + 2) := Sys2Proof.scw false false x

/-- The stimulus cycle words a statement presents, one per cycle (30_encoding.md R100, R101). The notation has no
statement whose literal is not W-bit (`Stmt.wf` refuses it); given one all the same, this function presents the literal's
low W bits (DESIGN CHOICE, log 18). -/
def Stmt.words (c : Config) : Stmt → List (BitVec (c.W + 2))
  | .reset => [resetWord c.W]
  | .start x => [startWord (BitVec.ofNat c.W x)]
  | .wait k => List.replicate k (waitWord 0)
  | .waitx k x => List.replicate k (waitWord (BitVec.ofNat c.W x))
  | .hold x k => List.replicate k (startWord (BitVec.ofNat c.W x))
  | .decode x => startWord (BitVec.ofNat c.W x) :: List.replicate (c.tmoBound + 6) (waitWord 0)
  | .decodeFast x => startWord (BitVec.ofNat c.W x) :: List.replicate (c.W + 4) (waitWord 0)

/-- The stimulus program of a sequence of statements (30_encoding.md R99); `Stmt.wf` is not tested here, so a literal that
is not W-bit is presented as `Stmt.words` says (DESIGN CHOICE, log 18). -/
def assemble (c : Config) (p : List Stmt) : List (BitVec (c.W + 2)) := p.flatMap (Stmt.words c)

end Sys2Proof.Machine
end

