-- ==== Sys2Proof/Safety.lean ====
section
/-!
DEFINITION. The terms claims are stated in: what a step may never break (the invariants), which hypotheses are valid and
what a decode must answer (42_arbitration.md R188, R190), and when two register files agree on what an operation does
not write. The core has no fault (60_exceptions.md R210): a safe run is one whose every state meets `DecodeInv`.
-/

namespace Sys2Proof.Machine

/-- `k` edges of the machine, stopping where a step stops: `Host.Core.run` of the core (Laws: `run_eq_core`). -/
def run : Nat → State → Host.Outcome State Fault Refusal
  | 0, s => .next s
  | k + 1, s =>
    match step s with
    | .next t => run k t
    | .fault f => .fault f
    | .refused f => .refused f

/-- The number of 1 bits of `v` (00_scope.md R10). -/
def popcount {w : Nat} (v : BitVec w) : Nat := ((List.range w).filter fun j => v.getLsbD j).length

/-- Every orchestrator register but `stage` agrees. -/
def SameButStage {c : Config} (r r' : Regs c) : Prop :=
  r'.hyp = r.hyp ∧ r'.vstart = r.vstart ∧ r'.tmo = r.tmo ∧ r'.done = r.done ∧ r'.success = r.success ∧ r'.dout = r.dout

/-- Every orchestrator register agrees: what a lane operation leaves as it was (40_parity_validator.md R122). -/
def SameOrch {c : Config} (r r' : Regs c) : Prop := SameButStage r r' ∧ r'.stage = r.stage

/-- `vstart` is 1 exactly in stage DISPR (41_orchestrator.md R158). -/
def PulseInv {c : Config} (r : Regs c) : Prop := r.vstart = decide (r.stage = .dispr)

/-- The stage is one of the seven named values (30_encoding.md R98). -/
def StageLegal {c : Config} (r : Regs c) : Prop := r.stage ≠ .reserved7

/-- `done` is 1 exactly in TERM; (done, success) is never (0, 1); without success `dout` is 0^D (60_exceptions.md R211,
70_reset_and_hazards.md R246). -/
def OutcomeInv {c : Config} (r : Regs c) : Prop :=
  r.done = decide (r.stage = .term) ∧ (r.success = true → r.done = true) ∧ (r.success = false → r.dout = 0)

/-- The timeout counter's range: at most TMO_BOUND+2, and that only in TERM (42_arbitration.md R183). -/
def CounterInv {c : Config} (r : Regs c) : Prop :=
  r.tmo.toNat ≤ c.tmoBound + 2 ∧ (r.stage ≠ .term → r.tmo.toNat ≤ c.tmoBound + 1)

/-- Lock-step (40_parity_validator.md R123, 20_memory.md R78): all lanes hold the same `vstage` and `vdone`, and while
they reduce, the same bit counter, in 1 to W-1 (R125 corner case a). -/
def LockStep {c : Config} (r : Regs c) : Prop :=
  ∀ i j : Fin (c.W + 1),
    (r.lanes.get i).vstage = (r.lanes.get j).vstage ∧ (r.lanes.get i).vdone = (r.lanes.get j).vdone ∧
    ((r.lanes.get i).vstage = .vred →
      (r.lanes.get i).n.toNat = (r.lanes.get j).n.toNat ∧
      1 ≤ (r.lanes.get i).n.toNat ∧ (r.lanes.get i).n.toNat ≤ c.W - 1)

/-- A lane with nothing started since the last start or reset. -/
def Lane.Cleared {c : Config} (l : Lane c) : Prop := l.vstage = .vidle ∧ l.vdone = false ∧ l.syn = 0

/-- A lane that has folded bits 0 to `t` of its candidate's masked rows and has more to fold (40_parity_validator.md
R124, R125). -/
def Lane.Reducing {c : Config} (candidate : Codeword c.W) (t : Nat) (l : Lane c) : Prop :=
  l.vstage = .vred ∧ l.vdone = false ∧ l.n.toNat = t + 1 ∧
  ∀ r, l.m.get r = candidate &&& c.H.get r ∧ l.acc.get r = xorBits (candidate &&& c.H.get r) (t + 1)

/-- A lane that holds the syndrome of its candidate (40_parity_validator.md R129). -/
def Lane.Finished {c : Config} (candidate : Codeword c.W) (l : Lane c) : Prop :=
  l.vstage = .vidle ∧ l.vdone = true ∧ l.syn = syndrome c candidate

/-- Hypothesis `i` of received word `x`: `x` itself for `i = W`, else `x` with bit `i` inverted (41_orchestrator.md
R157). -/
def hypothesis {c : Config} (x : Codeword c.W) (i : Fin (c.W + 1)) : Codeword c.W :=
  if i.val < c.W then Machine.flip x i.val else x

/-- The slots hold the candidate set of the received codeword (41_orchestrator.md R157). -/
def Candidates {c : Config} (r : Regs c) : Prop := ∀ i, r.hyp.get i = hypothesis r.received i

/-- Hypothesis `i` is valid for received word `x`: its syndrome is zero, said by columns (42_arbitration.md R188,
R190). -/
def Valid {c : Config} (x : Codeword c.W) (i : Fin (c.W + 1)) : Prop :=
  (i.val = c.W ∧ syndrome c x = 0) ∨ (i.val < c.W ∧ col c i.val = syndrome c x)

/-- `w` is the highest-indexed valid hypothesis (42_arbitration.md R181, R190). -/
def IsWinner {c : Config} (x : Codeword c.W) (w : Fin (c.W + 1)) : Prop :=
  Valid x w ∧ ∀ j : Fin (c.W + 1), w < j → ¬ Valid x j

/-- No hypothesis is valid: the word is uncorrectable (60_exceptions.md R211). -/
def Uncorrectable {c : Config} (x : Codeword c.W) : Prop := ∀ i : Fin (c.W + 1), ¬ Valid x i

/-- The columns of H are all nonzero and pairwise distinct (42_arbitration.md R189). -/
def GoodColumns (c : Config) : Prop :=
  (∀ j, j < c.W → col c j ≠ 0) ∧ ∀ i j, i < c.W → j < c.W → col c i = col c j → i = j

/-- The outputs while no result is available (60_exceptions.md R211). -/
def noResult (D : Nat) : Outputs D := ⟨false, false, 0⟩

/-- The outputs on success with data `d` (60_exceptions.md R211). -/
def corrected {D : Nat} (d : BitVec D) : Outputs D := ⟨true, true, d⟩

/-- The outputs for an uncorrectable word (60_exceptions.md R211). -/
def uncorrectable (D : Nat) : Outputs D := ⟨true, false, 0⟩

/-- What stage AWAIT means: `t` AWAIT edges of this decode are past; the lanes reduce until `t = W-1` and then hold the
syndromes; past that edge no hypothesis was valid (42_arbitration.md R182, R186). -/
def AwaitInv {c : Config} (r : Regs c) : Prop :=
  let t := r.tmo.toNat
  (t < c.W - 1 → ∀ i, (r.lanes.get i).Reducing (r.hyp.get i) t) ∧
  (c.W - 1 ≤ t → ∀ i, (r.lanes.get i).Finished (r.hyp.get i)) ∧
  (c.W - 1 < t → Uncorrectable r.received)

/-- What stage TERM means: the outputs are the result of decoding the received codeword (42_arbitration.md R190). -/
def TermInv {c : Config} (r : Regs c) : Prop :=
  (∀ i, (r.lanes.get i).Finished (r.hyp.get i)) ∧
  ((∃ w, IsWinner r.received w ∧ r.outputs = corrected (slice c (hypothesis r.received w)) ∧ r.tmo.toNat = c.W) ∨
   (Uncorrectable r.received ∧ r.outputs = uncorrectable c.D ∧ r.tmo.toNat = c.tmoBound + 2))

/-- The whole machine's invariant: what every register holds in every stage after a reset or a start edge. The registers
the spec leaves unspecified (10_state.md R49) are constrained only once written. -/
structure DecodeInv {c : Config} (r : Regs c) : Prop where
  pulse : PulseInv r
  legal : StageLegal r
  outcome : OutcomeInv r
  counter : CounterInv r
  /-- Before dispatch the lanes hold nothing and the counter is 0. -/
  cleared : r.stage ≠ .await → r.stage ≠ .term → r.tmo = 0 ∧ ∀ i, (r.lanes.get i).Cleared
  /-- After GEN every slot holds the received codeword (41_orchestrator.md R153). -/
  copied : r.stage = .flip → ∀ i, r.hyp.get i = r.received
  /-- After FLIP the slots hold the candidate set until the next start edge (41_orchestrator.md R157). -/
  candidates : r.stage = .dispa ∨ r.stage = .dispr ∨ r.stage = .await ∨ r.stage = .term → Candidates r
  awaiting : r.stage = .await → AwaitInv r
  ended : r.stage = .term → TermInv r

end Sys2Proof.Machine
end

