-- ==== Sys2Proof/Certificates/Slice0/Obligations.lean ====
section
/-!
DEFINITION. The statements for the provers. "Derived" in a docstring means that the clause rests on a decision or a
derivation the spec marks as its own (92_eei_decisions.md D<n>), or on a choice of this model (log <n>).
-/

open Sys2Proof Sys2Proof.Machine

/-! ## Encodings -/

/-- The operation map by fields (30_encoding.md R94, R96; derived: precedence D8, codes D17, D18): rst before start before
the register bits, for every control word of both formats. -/
def Obligations.ControlWordsSelectTheirOperations : Prop :=
  (∀ start st, decode .ocw (ocw true start st).toNat = .ok .reset) ∧
  (∀ st, decode .ocw (ocw false true st).toNat = .ok .load) ∧
  decode .ocw (ocw false false .idle).toNat = .ok .idle ∧
  decode .ocw (ocw false false .gen).toNat = .ok .gen ∧
  decode .ocw (ocw false false .flip).toNat = .ok .flip ∧
  decode .ocw (ocw false false .dispa).toNat = .ok .dispa ∧
  decode .ocw (ocw false false .dispr).toNat = .ok .dispr ∧
  decode .ocw (ocw false false .await).toNat = .ok .await ∧
  decode .ocw (ocw false false .term).toNat = .ok .term ∧
  decode .ocw (ocw false false .reserved7).toNat = .ok .reservedStage7 ∧
  (∀ start vstart v, decode .lcw (lcw true start vstart v).toNat = .ok .vReset) ∧
  (∀ vstart v, decode .lcw (lcw false true vstart v).toNat = .ok .vAbort) ∧
  (∀ v, decode .lcw (lcw false false true v).toNat = .ok .vMask) ∧
  decode .lcw (lcw false false false .vred).toNat = .ok .vRed ∧
  decode .lcw (lcw false false false .vidle).toNat = .ok .vIdle

/-- Words written out bit by bit from R94, R95 and R96 decode to the operations they stand for, and a number wider than its
format is refused by name. -/
def Obligations.WrittenOutWordsDecode : Prop :=
  decode .ocw 0b10000 = .ok .reset ∧ decode .ocw 0b11101 = .ok .reset ∧ decode .ocw 0b01000 = .ok .load ∧
  decode .ocw 0b01110 = .ok .load ∧ decode .ocw 0b00001 = .ok .gen ∧ decode .ocw 0b00101 = .ok .await ∧
  decode .ocw 0b00110 = .ok .term ∧ decode .ocw 0b100000 = .error .tooWide ∧
  decode .lcw 0b1011 = .ok .vReset ∧ decode .lcw 0b0110 = .ok .vAbort ∧ decode .lcw 0b0011 = .ok .vMask ∧
  decode .lcw 0b0001 = .ok .vRed ∧ decode .lcw 0b10000 = .error .tooWide

/-- No control word is ambiguous: every number that fits a format is selected by exactly one row of its table, the reserved
stage code 0b00111 by its own (30_encoding.md R98; derived: D17; log 6), and every other number is refused
(30_encoding.md R94, R96). -/
def Obligations.EveryControlWordHasExactlyOneRow : Prop :=
  ∀ (f : Format) (w : Nat),
    (f.fits w = true → ((opTable f).filter fun row => row.selects w).length = 1) ∧
    (f.fits w = false → decode f w = .error .tooWide)

/-- The stimulus cycle word and its fields agree both ways, for every width and every word (30_encoding.md R99; derived:
D19): rst is bit W+1, start bit W, data_input bits W-1 to 0, and nothing is dropped. -/
def Obligations.StimulusWordRoundTrip : Prop :=
  ∀ W : Nat,
    (∀ (rst start : Bool) (x : Codeword W),
      scwRst (scw rst start x) = rst ∧ scwStart (scw rst start x) = start ∧ scwData (scw rst start x) = x ∧
      (scw rst start x).toNat = rst.toNat * 2 ^ (W + 1) + start.toNat * 2 ^ W + x.toNat) ∧
    ∀ w : BitVec (W + 2), scw (scwRst w) (scwStart w) (scwData w) = w

/-- The cycles each stimulus statement presents (30_encoding.md R100, R101; derived: D19), for W-bit literals. -/
def Obligations.StimulusStatementsPresentTheirWords : Prop :=
  ∀ (c : Config) (x k : Nat), x < 2 ^ c.W →
    (Stmt.words c .reset).map BitVec.toNat = [2 ^ (c.W + 1)] ∧
    (Stmt.words c (.start x)).map BitVec.toNat = [2 ^ c.W + x] ∧
    (Stmt.words c (.wait k)).map BitVec.toNat = List.replicate k 0 ∧
    (Stmt.words c (.waitx k x)).map BitVec.toNat = List.replicate k x ∧
    (Stmt.words c (.hold x k)).map BitVec.toNat = List.replicate k (2 ^ c.W + x) ∧
    Stmt.words c (.decode x) = Stmt.words c (.start x) ++ Stmt.words c (.wait (c.tmoBound + 6)) ∧
    Stmt.words c (.decodeFast x) = Stmt.words c (.start x) ++ Stmt.words c (.wait (c.W + 4))

/-! ## The configuration -/

/-- A core is built exactly from well-formed parameters (00_scope.md R7; derived: D16, and the row count, log 16). -/
def Obligations.BuildRefusesExactlyTheMalformed : Prop :=
  ∀ p : Params,
    (∃ c, p.build = .ok c) ↔
      1 ≤ p.W ∧ 1 ≤ p.R ∧ 1 ≤ p.D ∧ p.D ≤ p.W ∧ p.H.length = p.R ∧ (∀ h ∈ p.H, h < 2 ^ p.W) ∧ p.W - 1 ≤ p.tmoBound

/-- Building keeps every parameter, rows in order, and every configuration is built from its own parameters
(00_scope.md R6, 30_encoding.md R91). -/
def Obligations.BuildKeepsTheParameters : Prop :=
  (∀ (p : Params) (c : Config), p.build = .ok c → c.params = p) ∧ ∀ c : Config, c.params.build = .ok c

/-! ## GF(2) -/

/-- The syndrome, row by row (40_parity_validator.md R120, R121): bit R-1-r is the parity of the masked row, which is its
population count modulo 2; a zero row passes every codeword; equal rows give equal bits. -/
def Obligations.SyndromeBitsAreRowParities : Prop :=
  ∀ (c : Config) (v : Codeword c.W) (r : Fin c.R),
    (syndrome c v).getLsbD (c.R - 1 - r.val) = parity (v &&& c.H.get r) ∧
    (parity (v &&& c.H.get r) = true ↔ popcount (v &&& c.H.get r) % 2 = 1) ∧
    (c.H.get r = 0 → (syndrome c v).getLsbD (c.R - 1 - r.val) = false) ∧
    (∀ q : Fin c.R, c.H.get q = c.H.get r →
      (syndrome c v).getLsbD (c.R - 1 - q.val) = (syndrome c v).getLsbD (c.R - 1 - r.val)) ∧
    (syndrome c v = 0 ↔ ∀ q : Fin c.R, parity (v &&& c.H.get q) = false)

/-- Linearity (42_arbitration.md R188; derived there from R120 and R10): of the syndrome, and so of a flip. -/
def Obligations.SyndromeIsLinear : Prop :=
  ∀ (c : Config) (a b : Codeword c.W),
    syndrome c (a ^^^ b) = syndrome c a ^^^ syndrome c b ∧
    (∀ j, syndrome c (Machine.flip a j) = syndrome c a ^^^ col c j) ∧
    ∀ j (r : Fin c.R), j < c.W → (col c j).getLsbD (c.R - 1 - r.val) = (c.H.get r).getLsbD j

/-- A hypothesis is valid exactly if its syndrome is zero (42_arbitration.md R188; derived there). -/
def Obligations.ValidMeansZeroSyndrome : Prop :=
  ∀ (c : Config) (x : Codeword c.W) (i : Fin (c.W + 1)), Valid x i ↔ syndrome c (hypothesis x i) = 0

/-- Nonzero distinct columns leave at most one valid hypothesis for any word (42_arbitration.md R189; derived there). -/
def Obligations.GoodColumnsLeaveOneHypothesis : Prop :=
  ∀ c : Config, GoodColumns c → ∀ (x : Codeword c.W) (i j : Fin (c.W + 1)), Valid x i → Valid x j → i = j

/-- Hypothesis i < W differs from the received word in exactly bit i, and from hypothesis j < W, j ≠ i, in exactly the two
bits i and j (41_orchestrator.md R157; derived there; bit i has weight 2^i, D3). -/
def Obligations.CandidatesDifferInTheirOwnBits : Prop :=
  ∀ (c : Config) (x : Codeword c.W) (i : Fin (c.W + 1)), i.val < c.W →
    hypothesis x i ^^^ x = 1#c.W <<< i.val ∧ popcount (hypothesis x i ^^^ x) = 1 ∧
    ∀ j : Fin (c.W + 1), j.val < c.W → i ≠ j →
      hypothesis x i ^^^ hypothesis x j = (1#c.W <<< i.val) ^^^ (1#c.W <<< j.val) ∧
      popcount (hypothesis x i ^^^ hypothesis x j) = 2

/-- The published slice, bit by bit (42_arbitration.md R185, 00_scope.md R6; derived: HIGH is D4). -/
def Obligations.SliceTakesTheChosenBits : Prop :=
  ∀ (c : Config) (v : Codeword c.W) (j : Nat), j < c.D →
    (c.dataSlice = .high → (slice c v).getLsbD j = v.getLsbD (c.W - c.D + j)) ∧
    (c.dataSlice = .low → (slice c v).getLsbD j = v.getLsbD j) ∧
    (c.D = c.W → (slice c v).toNat = v.toNat)

/-- The priority scan finds the highest index with a zero syndrome, or nothing (42_arbitration.md R181). -/
def Obligations.PriorityScanFindsTheHighestIndex : Prop :=
  ∀ (c : Config) (r : Regs c),
    (∀ w, winner r = some w ↔
      (r.lanes.get w).syn = 0 ∧ ∀ j : Fin (c.W + 1), w < j → (r.lanes.get j).syn ≠ 0) ∧
    (winner r = none ↔ ∀ j : Fin (c.W + 1), (r.lanes.get j).syn ≠ 0)

/-! ## The orchestrator's operations -/

/-- RESET (70_reset_and_hazards.md R240; derived: D14): every listed register takes its reset value, `hyp` and each
lane's `m`, `acc` and `n` are not written, from every state. -/
def Obligations.ResetWritesItsRegisters : Prop :=
  ∀ s : State, ∃ r : Regs s.cfg, exec .reset s = .next (s.withRegs r) ∧
    r.stage = .idle ∧ r.vstart = false ∧ r.tmo = 0 ∧ r.outputs = noResult s.cfg.D ∧ r.hyp = s.regs.hyp ∧
    ∀ i, (r.lanes.get i).Cleared ∧ (r.lanes.get i).m = (s.regs.lanes.get i).m ∧
      (r.lanes.get i).acc = (s.regs.lanes.get i).acc ∧ (r.lanes.get i).n = (s.regs.lanes.get i).n

/-- LOAD (41_orchestrator.md R151; derived: sampling at the start edge, D5): slot W takes `data_input`, the working state
is cleared; slots 0 to W-1 and the lanes are not written by it, from every state. -/
def Obligations.LoadLatchesTheReceivedWord : Prop :=
  ∀ s : State, ∃ r : Regs s.cfg, exec .load s = .next (s.withRegs r) ∧
    r.received = s.dataInput ∧ (∀ i : Fin (s.cfg.W + 1), i.val < s.cfg.W → r.hyp.get i = s.regs.hyp.get i) ∧
    r.outputs = noResult s.cfg.D ∧ r.tmo = 0 ∧ r.vstart = false ∧ r.stage = .gen ∧ r.lanes = s.regs.lanes

/-- IDLE (41_orchestrator.md R152): its word is 00000; no register is written; an edge with rst=0 and start=0 in IDLE,
no pulse pending and the lanes idle, writes no register at all; only an edge with rst=1 enters IDLE from another stage,
and after it the outputs read no result. -/
def Obligations.IdleWaitsForStart : Prop :=
  decode .ocw 0b00000 = .ok .idle ∧ (∀ s : State, exec .idle s = .next s) ∧
  (∀ s : State, s.rst = false → s.start = false → s.regs.stage = .idle → s.regs.vstart = false →
    (∀ i, (s.regs.lanes.get i).vstage = .vidle) → step s = .next (s.after 1 s.regs)) ∧
  ∀ (s : State) (r : Regs s.cfg), step s = .next (s.after 1 r) →
    (r.stage = .idle → s.regs.stage ≠ .idle → s.rst = true) ∧
    (s.rst = true → r.stage = .idle ∧ r.outputs = noResult s.cfg.D)

/-- GEN (41_orchestrator.md R153): its word is 00001; slots 0 to W-1 take slot W, which is not written, nor is any other
register but the stage. -/
def Obligations.GenCopiesTheReceivedWord : Prop :=
  decode .ocw 0b00001 = .ok .gen ∧
  ∀ s : State, ∃ r : Regs s.cfg, exec .gen s = .next (s.withRegs r) ∧
    (∀ i : Fin (s.cfg.W + 1), i.val < s.cfg.W → r.hyp.get i = s.regs.received) ∧ r.received = s.regs.received ∧
    r.stage = .flip ∧ r.vstart = s.regs.vstart ∧ r.tmo = s.regs.tmo ∧ r.outputs = s.regs.outputs ∧
    r.lanes = s.regs.lanes

/-- FLIP (41_orchestrator.md R154; derived: bit i is the bit of weight 2^i, D3): slot i has bit i inverted and every other
bit as it was; slot W and every other register but the stage are not written. -/
def Obligations.FlipInvertsOneBitPerSlot : Prop :=
  ∀ s : State, ∃ r : Regs s.cfg, exec .flip s = .next (s.withRegs r) ∧
    (∀ i : Fin (s.cfg.W + 1), i.val < s.cfg.W → ∀ j, j < s.cfg.W →
      (r.hyp.get i).getLsbD j = ((s.regs.hyp.get i).getLsbD j ^^ decide (j = i.val))) ∧
    r.received = s.regs.received ∧ r.stage = .dispa ∧ r.vstart = s.regs.vstart ∧ r.tmo = s.regs.tmo ∧
    r.outputs = s.regs.outputs ∧ r.lanes = s.regs.lanes

/-- DISPA (41_orchestrator.md R155): its word is 00011; the pulse rises, the lanes do not start at this edge, and only
`vstart` and the stage are written. -/
def Obligations.DispaAssertsThePulse : Prop :=
  decode .ocw 0b00011 = .ok .dispa ∧
  (∀ s : State, ∃ r : Regs s.cfg, exec .dispa s = .next (s.withRegs r) ∧
    r.vstart = true ∧ r.stage = .dispr ∧ r.hyp = s.regs.hyp ∧ r.tmo = s.regs.tmo ∧ r.outputs = s.regs.outputs ∧
    r.lanes = s.regs.lanes) ∧
  ∀ s : State, s.rst = false → s.start = false → s.regs.stage = .dispa → s.regs.vstart = false →
    (∀ i, (s.regs.lanes.get i).vstage = .vidle) →
    ∃ r : Regs s.cfg, step s = .next (s.after 1 r) ∧ r.vstart = true ∧ r.lanes = s.regs.lanes

/-- DISPR (41_orchestrator.md R156; derived: the accumulators start at bit 0 and n at 1, D10): its word is 00100; the pulse
falls, and at that edge every lane, seeing the pre-edge pulse, performs V_MASK on its hypothesis: it is left reducing with
n=1 and bit 0 folded, or finished when W=1. -/
def Obligations.DisprReleasesThePulseAndLanesStart : Prop :=
  decode .ocw 0b00100 = .ok .dispr ∧
  (∀ s : State, ∃ r : Regs s.cfg, exec .dispr s = .next (s.withRegs r) ∧
    r.vstart = false ∧ r.stage = .await ∧ r.hyp = s.regs.hyp ∧ r.tmo = s.regs.tmo ∧ r.outputs = s.regs.outputs ∧
    r.lanes = s.regs.lanes) ∧
  ∀ s : State, s.rst = false → s.start = false → s.regs.stage = .dispr → s.regs.vstart = true →
    ∃ r : Regs s.cfg, step s = .next (s.after 1 r) ∧ r.vstart = false ∧ r.stage = .await ∧
      ∀ i, (1 < s.cfg.W → (r.lanes.get i).Reducing (s.regs.hyp.get i) 0) ∧
        (s.cfg.W = 1 → (r.lanes.get i).Finished (s.regs.hyp.get i))

/-- The allDone gate (42_arbitration.md R180): the lane predicates; without allDone AWAIT publishes nothing; and V_ABORT and
reset leave syn 0 with vdone 0 in every lane, so that the lanes read as zero and yet do not pass the gate. -/
def Obligations.AwaitArbitratesOnlyWhenAllLanesAreDone : Prop :=
  ∀ s : State,
    (allDone s.regs = true ↔ ∀ i, (s.regs.lanes.get i).vdone = true) ∧
    (∀ i, Machine.zero s.regs i = true ↔ (s.regs.lanes.get i).syn = 0) ∧
    (allDone s.regs = false → ∃ r : Regs s.cfg, exec .await s = .next (s.withRegs r) ∧
      r.success = s.regs.success ∧ r.dout = s.regs.dout) ∧
    ∀ i, i = Instr.vAbort ∨ i = Instr.vReset ∨ i = Instr.reset → ∃ r : Regs s.cfg, exec i s = .next (s.withRegs r) ∧
      (∀ k, (r.lanes.get k).syn = 0 ∧ (r.lanes.get k).vdone = false ∧ Machine.zero r k = true) ∧ allDone r = false

/-- AWAIT's success branch (42_arbitration.md R182; derived: before the timeout test, D12): with every lane done and `w`
the highest zero lane, the slice of `hyp[w]` is published with done and success, at every value of the counter. -/
def Obligations.AwaitPublishesTheWinner : Prop :=
  ∀ (s : State) (w : Fin (s.cfg.W + 1)),
    (∀ i, (s.regs.lanes.get i).vdone = true) → (s.regs.lanes.get w).syn = 0 →
    (∀ j : Fin (s.cfg.W + 1), w < j → (s.regs.lanes.get j).syn ≠ 0) →
    ∃ r : Regs s.cfg, exec .await s = .next (s.withRegs r) ∧
      r.outputs = corrected (slice s.cfg (s.regs.hyp.get w)) ∧ r.stage = .term ∧
      (s.regs.tmo.toNat < s.cfg.tmoBound + 2 → r.tmo.toNat = s.regs.tmo.toNat + 1) ∧
      r.hyp = s.regs.hyp ∧ r.vstart = s.regs.vstart ∧ r.lanes = s.regs.lanes

/-- AWAIT's other two branches (42_arbitration.md R182, R183; derived: the strict comparison, D11): with no winner it
declares failure exactly if the pre-edge count exceeds the bound, else keeps waiting; success and dout are not written.
The count is incremented wherever TMO_W bits hold the result, and they hold every value up to TMO_BOUND+2. -/
def Obligations.AwaitTimesOutOrKeepsWaiting : Prop :=
  ∀ s : State,
    ((∃ i, (s.regs.lanes.get i).vdone = false) ∨ ∀ i, (s.regs.lanes.get i).syn ≠ 0) →
    ∃ r : Regs s.cfg, exec .await s = .next (s.withRegs r) ∧
      (s.cfg.tmoBound < s.regs.tmo.toNat → r.done = true ∧ r.stage = .term) ∧
      (s.regs.tmo.toNat ≤ s.cfg.tmoBound → r.done = s.regs.done ∧ r.stage = .await) ∧
      (s.regs.tmo.toNat + 1 < 2 ^ s.cfg.tmoW → r.tmo.toNat = s.regs.tmo.toNat + 1) ∧
      s.cfg.tmoBound + 2 < 2 ^ s.cfg.tmoW ∧
      r.success = s.regs.success ∧ r.dout = s.regs.dout ∧ r.hyp = s.regs.hyp ∧ r.vstart = s.regs.vstart ∧
      r.lanes = s.regs.lanes

/-- TERM (42_arbitration.md R184): its word is 00110; no register is written, `tmo` included; an edge with rst=0 and
start=0 in TERM, no pulse pending and the lanes idle (as the decode invariant gives in TERM), writes no register at all;
and only rst or start leaves TERM. -/
def Obligations.TermHoldsTheResult : Prop :=
  decode .ocw 0b00110 = .ok .term ∧ (∀ s : State, exec .term s = .next s) ∧
  (∀ s : State, s.rst = false → s.start = false → s.regs.stage = .term → s.regs.vstart = false →
    (∀ i, (s.regs.lanes.get i).vstage = .vidle) → step s = .next (s.after 1 s.regs)) ∧
  (∀ (c : Config) (r : Regs c), DecodeInv r → r.stage = .term →
    r.vstart = false ∧ ∀ i, (r.lanes.get i).vstage = .vidle) ∧
  ∀ (s : State) (r : Regs s.cfg), step s = .next (s.after 1 r) → s.regs.stage = .term → r.stage ≠ .term →
    s.rst = true ∨ s.start = true

/-- The reserved stage code in a 3-bit build (30_encoding.md R98; derived: D17, log 6): it holds every register, rst and
start leave it as usual, and no edge enters it. -/
def Obligations.ReservedStageHolds : Prop :=
  (∀ s : State, exec .reservedStage7 s = .next s) ∧
  ∀ (s : State) (r : Regs s.cfg), step s = .next (s.after 1 r) →
    (s.regs.stage = .reserved7 → r.stage = if s.rst then .idle else if s.start then .gen else .reserved7) ∧
    (s.regs.stage ≠ .reserved7 → r.stage ≠ .reserved7)

/-! ## The lanes' operations -/

/-- V_RESET and V_ABORT (70_reset_and_hazards.md R240, 40_parity_validator.md R127; derived: D14, D9): every lane is
cleared; `m`, `acc` and `n` and the orchestrator's registers are not written. -/
def Obligations.ResetAndAbortClearTheLanes : Prop :=
  ∀ (i : Instr), i = .vReset ∨ i = .vAbort → ∀ s : State, ∃ r : Regs s.cfg, exec i s = .next (s.withRegs r) ∧
    SameOrch s.regs r ∧
    ∀ k, (r.lanes.get k).Cleared ∧ (r.lanes.get k).m = (s.regs.lanes.get k).m ∧
      (r.lanes.get k).acc = (s.regs.lanes.get k).acc ∧ (r.lanes.get k).n = (s.regs.lanes.get k).n

/-- V_MASK (40_parity_validator.md R124; derived: the accumulators start at bit 0, D10): the masked rows are latched and
bit 0 folded; for W > 1 the lane is left reducing with n=1 and its old syndrome, for W = 1 it is done at once. -/
def Obligations.MaskLatchesTheCandidate : Prop :=
  ∀ s : State, ∃ r : Regs s.cfg, exec .vMask s = .next (s.withRegs r) ∧ SameOrch s.regs r ∧
    ∀ i, (∀ q, (r.lanes.get i).m.get q = s.regs.hyp.get i &&& s.cfg.H.get q ∧
        (r.lanes.get i).acc.get q = (s.regs.hyp.get i &&& s.cfg.H.get q).getLsbD 0) ∧
      (1 < s.cfg.W → (r.lanes.get i).n.toNat = 1 ∧ (r.lanes.get i).vdone = false ∧ (r.lanes.get i).vstage = .vred ∧
        (r.lanes.get i).syn = (s.regs.lanes.get i).syn) ∧
      (s.cfg.W = 1 → (r.lanes.get i).vdone = true ∧ (r.lanes.get i).vstage = .vidle ∧
        (r.lanes.get i).n = (s.regs.lanes.get i).n ∧
        ∀ q : Fin s.cfg.R, (r.lanes.get i).syn.getLsbD (s.cfg.R - 1 - q.val) =
          (s.regs.hyp.get i &&& s.cfg.H.get q).getLsbD 0)

/-- V_RED (40_parity_validator.md R125; derived: the ascending schedule, D10): one bit of every row is folded; at n = W-1
the packed accumulators are published with done, else n counts. Where n is no bit position, or NW bits cannot hold n+1,
the spec gives no value (logs 7, 8) and none is said. -/
def Obligations.ReduceFoldsOneBit : Prop :=
  ∀ s : State, ∃ r : Regs s.cfg, exec .vRed s = .next (s.withRegs r) ∧ SameOrch s.regs r ∧
    ∀ i, (r.lanes.get i).m = (s.regs.lanes.get i).m ∧
      ((s.regs.lanes.get i).n.toNat < s.cfg.W → ∀ q, (r.lanes.get i).acc.get q =
        ((s.regs.lanes.get i).acc.get q ^^
          ((s.regs.lanes.get i).m.get q).getLsbD (s.regs.lanes.get i).n.toNat)) ∧
      ((s.regs.lanes.get i).n.toNat = s.cfg.W - 1 →
        (∀ q : Fin s.cfg.R, (r.lanes.get i).syn.getLsbD (s.cfg.R - 1 - q.val) = (r.lanes.get i).acc.get q) ∧
        (r.lanes.get i).vdone = true ∧ (r.lanes.get i).vstage = .vidle ∧
        (r.lanes.get i).n = (s.regs.lanes.get i).n) ∧
      ((s.regs.lanes.get i).n.toNat ≠ s.cfg.W - 1 →
        (r.lanes.get i).syn = (s.regs.lanes.get i).syn ∧ (r.lanes.get i).vdone = (s.regs.lanes.get i).vdone ∧
        (r.lanes.get i).vstage = (s.regs.lanes.get i).vstage ∧
        ((s.regs.lanes.get i).n.toNat + 1 < 2 ^ s.cfg.nW →
          (r.lanes.get i).n.toNat = (s.regs.lanes.get i).n.toNat + 1))

/-- V_IDLE (40_parity_validator.md R126): its word is 0000; no register is written; a finished lane that sees no pulse, no
start and no reset holds its result. -/
def Obligations.IdleLanesHold : Prop :=
  decode .lcw 0b0000 = .ok .vIdle ∧ (∀ s : State, exec .vIdle s = .next s) ∧
  ∀ s : State, s.rst = false → s.start = false → s.regs.vstart = false →
    ∃ r : Regs s.cfg, step s = .next (s.after 1 r) ∧
      ∀ i, (s.regs.lanes.get i).vstage = .vidle → r.lanes.get i = s.regs.lanes.get i

/-- No trap and no exception (60_exceptions.md R210): every operation and every edge answers a next state from every state.
Derived, of the model's own fields (logs 1, 4, 5): an operation writes registers only, so the configuration, the stimulus
and the edge count are as they were; an edge keeps the configuration, uses up one stimulus word and counts one. -/
def Obligations.NoOperationTraps : Prop :=
  (∀ (i : Instr) (s : State), ∃ r : Regs s.cfg, exec i s = .next (s.withRegs r)) ∧
  ∀ s : State, ∃ r : Regs s.cfg, step s = .next (s.after 1 r)

/-- Who writes what (10_state.md sections 2 and 3: the Writers of R32, R33, R35 to R39 and R41 to R46; derived: that RESET
and V_RESET write what they do is D14, Load as no stage D5, V_ABORT's writes D9, the lanes' schedule D10): a register an
operation changes has it among its writers. LOAD writes slot W of the hypothesis slots only, GEN and FLIP the other slots
only; vstart, done and success are set and cleared by the writer listed for that, tmo and dout cleared by LOAD and RESET;
AWAIT writes success and dout only where it publishes a winner, and a lane's syn is written, V_ABORT and reset apart, only
at the completing edge. -/
def Obligations.OnlyTheNamedWritersWrite : Prop :=
  ∀ (i : Instr) (s : State) (r : Regs s.cfg), exec i s = .next (s.withRegs r) →
    (r.hyp ≠ s.regs.hyp → i = .load ∨ i = .gen ∨ i = .flip) ∧
    (r.received ≠ s.regs.received → i = .load) ∧
    (∀ k : Fin (s.cfg.W + 1), k.val < s.cfg.W → r.hyp.get k ≠ s.regs.hyp.get k → i = .gen ∨ i = .flip) ∧
    (r.stage ≠ s.regs.stage →
      i = .load ∨ i = .gen ∨ i = .flip ∨ i = .dispa ∨ i = .dispr ∨ i = .await ∨ i = .reset) ∧
    (r.vstart ≠ s.regs.vstart →
      (i = .dispa ∧ r.vstart = true) ∨ ((i = .dispr ∨ i = .load ∨ i = .reset) ∧ r.vstart = false)) ∧
    (r.tmo ≠ s.regs.tmo → i = .await ∨ ((i = .load ∨ i = .reset) ∧ r.tmo = 0)) ∧
    (r.done ≠ s.regs.done → (i = .await ∧ r.done = true) ∨ ((i = .load ∨ i = .reset) ∧ r.done = false)) ∧
    (r.success ≠ s.regs.success →
      (i = .await ∧ arbitrate s.regs ≠ none ∧ r.success = true) ∨ ((i = .load ∨ i = .reset) ∧ r.success = false)) ∧
    (r.dout ≠ s.regs.dout →
      (i = .await ∧ arbitrate s.regs ≠ none) ∨ ((i = .load ∨ i = .reset) ∧ r.dout = 0)) ∧
    ∀ k, ((r.lanes.get k).m ≠ (s.regs.lanes.get k).m → i = .vMask) ∧
      ((r.lanes.get k).acc ≠ (s.regs.lanes.get k).acc → i = .vMask ∨ i = .vRed) ∧
      ((r.lanes.get k).n ≠ (s.regs.lanes.get k).n → i = .vMask ∨ i = .vRed) ∧
      ((r.lanes.get k).vstage ≠ (s.regs.lanes.get k).vstage ∨ (r.lanes.get k).vdone ≠ (s.regs.lanes.get k).vdone →
        i = .vMask ∨ i = .vRed ∨ i = .vAbort ∨ i = .vReset ∨ i = .reset) ∧
      ((r.lanes.get k).syn ≠ (s.regs.lanes.get k).syn →
        (i = .vMask ∧ s.cfg.W = 1) ∨ (i = .vRed ∧ (s.regs.lanes.get k).n.toNat = s.cfg.W - 1) ∨
        ((i = .vAbort ∨ i = .vReset ∨ i = .reset) ∧ (r.lanes.get k).syn = 0))

/-! ## One edge -/

/-- A step runs the decoded operations (41_orchestrator.md R150): the orchestrator's registers after the edge are those the
operation its control word decodes to leaves, and lane i's those lane i's own operation leaves, each performed on the
pre-edge state; one stimulus cycle word is used up. -/
def Obligations.StepRunsTheDecodedOperations : Prop :=
  ∀ (s : State) (o : Instr), decode .ocw s.ocw.toNat = .ok o →
    ∃ r q : Regs s.cfg, step s = .next (s.after 1 r) ∧ exec o s = .next (s.withRegs q) ∧ SameOrch q r ∧
      ∀ (i : Fin (s.cfg.W + 1)) (l : Instr), decode .lcw (s.lcw i).toNat = .ok l →
        ∃ u : Regs s.cfg, exec l s = .next (s.withRegs u) ∧ r.lanes.get i = u.lanes.get i

/-- Placing a control word makes the next edge perform exactly its operation (the model's own, log 10): the orchestrator,
or every lane. -/
def Obligations.PlacedControlWordIsSelected : Prop :=
  ∀ (s : State) (nbits w : Nat) (i : Instr), decodeTableWord nbits w = some i →
    (nbits ≠ 4 → (s.withFetchWord nbits w).orchInstr = i) ∧
    (nbits = 4 → ∀ k : Fin (s.cfg.W + 1), (s.withFetchWord nbits w).laneInstr k = i)

/-- The transition table (41_orchestrator.md R150; derived: one edge a stage, D5, D6). -/
def Obligations.StageTransitionTable : Prop :=
  ∀ (s : State) (r : Regs s.cfg), step s = .next (s.after 1 r) →
    (s.rst = true → r.stage = .idle) ∧
    (s.rst = false → s.start = true → r.stage = .gen) ∧
    (s.rst = false → s.start = false →
      (s.regs.stage = .idle → r.stage = .idle) ∧ (s.regs.stage = .gen → r.stage = .flip) ∧
      (s.regs.stage = .flip → r.stage = .dispa) ∧ (s.regs.stage = .dispa → r.stage = .dispr) ∧
      (s.regs.stage = .dispr → r.stage = .await) ∧
      (s.regs.stage = .await → r.stage = .await ∨ r.stage = .term) ∧ (s.regs.stage = .term → r.stage = .term))

/-- Sampling of data_input (70_reset_and_hazards.md R245; derived: LOAD at every edge of a held start, D7, at the start edge,
D5, and rst before start, D8): two states that differ only in the data_input of the next word
have the same next registers unless that word has start=1 and rst=0; there, slot W takes the data_input of that edge, and
of any number of start edges in a row the last counts. -/
def Obligations.DataInputIsSampledOnlyAtStartEdges : Prop :=
  ∀ (s : State) (x y : Codeword s.cfg.W) (xs : List (Codeword s.cfg.W)) (p : List (BitVec (s.cfg.W + 2))),
    (∀ rst start, (rst = true ∨ start = false) →
      ∃ r : Regs s.cfg, step (s.withStim (scw rst start x :: p)) = .next (⟨s.cfg, r, p, s.cycle + 1⟩ : State) ∧
        step (s.withStim (scw rst start y :: p)) = .next (⟨s.cfg, r, p, s.cycle + 1⟩ : State)) ∧
    (∃ r : Regs s.cfg, step (s.withStim (startWord x :: p)) = .next (⟨s.cfg, r, p, s.cycle + 1⟩ : State) ∧
      r.received = x) ∧
    ∃ r : Regs s.cfg, run (xs.length + 1) (s.withStim (xs.map startWord ++ startWord y :: p)) =
        .next (⟨s.cfg, r, p, s.cycle + (xs.length + 1)⟩ : State) ∧ r.received = y ∧ r.stage = .gen

/-- Priority at one edge (60_exceptions.md R215; derived: rst first, D8): rst=1 resets whatever start is; else start=1
loads and aborts every lane, also one that sees the pulse, and no decode result is written. -/
def Obligations.ResetThenStartTakePriority : Prop :=
  ∀ s : State, ∃ r : Regs s.cfg, step s = .next (s.after 1 r) ∧
    (s.rst = true → r.stage = .idle ∧ r.outputs = noResult s.cfg.D ∧ r.vstart = false ∧ r.tmo = 0 ∧
      r.hyp = s.regs.hyp ∧ ∀ i, (r.lanes.get i).Cleared) ∧
    (s.rst = false → s.start = true → r.stage = .gen ∧ r.outputs = noResult s.cfg.D ∧ r.vstart = false ∧ r.tmo = 0 ∧
      r.received = s.dataInput ∧ ∀ i, (r.lanes.get i).Cleared)

/-! ## Invariants of every step, and reset -/

/-- What reset leaves (70_reset_and_hazards.md R240; derived: D14; the configuration, the zero of the unspecified
registers and the empty stimulus are the model's choices, logs 1, 2, 4). -/
def Obligations.ResetStateValues : Prop :=
  State.reset.cfg = Config.example6 ∧ State.reset.regs.stage = .idle ∧ State.reset.regs.vstart = false ∧
  State.reset.regs.tmo = 0 ∧ State.reset.regs.outputs = noResult 3 ∧
  (∀ i, (State.reset.regs.lanes.get i).Cleared) ∧ State.reset.stim = [] ∧ State.reset.cycle = 0

/-- The state right after reset meets the decode invariant, for every configuration. -/
def Obligations.ResetMeetsTheDecodeInvariant : Prop :=
  ∀ c : Config, DecodeInv (State.resetWith c).regs

/-- The dispatch pulse (41_orchestrator.md R158; derived there): vstart = 1 exactly in DISPR, kept by every edge. -/
def Obligations.PulseOnlyInDispr : Prop :=
  ∀ (s : State) (r : Regs s.cfg), step s = .next (s.after 1 r) → PulseInv s.regs → PulseInv r

/-- Lock-step (40_parity_validator.md R123; derived there), kept by every edge, whatever the orchestrator's stage. -/
def Obligations.LanesStayInLockStep : Prop :=
  ∀ (s : State) (r : Regs s.cfg), step s = .next (s.after 1 r) → LockStep s.regs → LockStep r

/-- The outcome codes (60_exceptions.md R211, 70_reset_and_hazards.md R246; derived there): (0, 1) is never shown, and
without success data_output is 0; kept by every edge. -/
def Obligations.OutcomeCodesStayLegal : Prop :=
  ∀ (s : State) (r : Regs s.cfg), step s = .next (s.after 1 r) → OutcomeInv s.regs → OutcomeInv r

/-- The timeout counter stays in 0 to TMO_BOUND+2 and never wraps (10_state.md R36; derived: D13, cleared by rst, D14, and
counted at every AWAIT edge, D11), kept by every edge: an edge with rst or start clears it; any other AWAIT edge makes it
exactly one more, and an edge in any other stage leaves it. -/
def Obligations.TimeoutCounterNeverWraps : Prop :=
  ∀ (s : State) (r : Regs s.cfg), step s = .next (s.after 1 r) → CounterInv s.regs →
    CounterInv r ∧ (s.rst = true ∨ s.start = true → r.tmo = 0) ∧
    (s.rst = false → s.start = false →
      (s.regs.stage = .await → r.tmo.toNat = s.regs.tmo.toNat + 1) ∧
      (s.regs.stage ≠ .await → r.tmo = s.regs.tmo))

/-- THE INVARIANT (derived from the rules of 40, 41 and 42): from every state that meets it, whatever the inputs, every
step gives a state that meets it. It says what every specified register holds in every stage. -/
def Obligations.EveryStepKeepsTheDecodeInvariant : Prop :=
  ∀ (s : State) (r : Regs s.cfg), step s = .next (s.after 1 r) → DecodeInv s.regs → DecodeInv r

/-- A start edge brings every state, also one no run reaches, into the decode invariant (70_reset_and_hazards.md R243;
derived there): no reset is needed. -/
def Obligations.StartEdgeEstablishesTheInvariant : Prop :=
  ∀ (s : State) (r : Regs s.cfg), step s = .next (s.after 1 r) → s.start = true → s.rst = false → DecodeInv r

/-! ## Whole decodes -/

/-- Lane latency and result (40_parity_validator.md R128, R129; derived there): from an edge that sees the pulse, with
neither rst nor start for W edges, every lane is busy for W-1 cycles and then done with the syndrome of the hypothesis it
saw, whatever else the state holds. -/
def Obligations.LanesFinishAfterExactlyWEdges : Prop :=
  ∀ (s : State) (ds : List (Codeword s.cfg.W)) (p : List (BitVec (s.cfg.W + 2))),
    s.regs.stage = .dispr → s.regs.vstart = true → s.stim = ds.map waitWord ++ p → ds.length = s.cfg.W →
    ∀ k, 1 ≤ k → k ≤ s.cfg.W → ∃ r : Regs s.cfg, run k s = .next (s.after k r) ∧
      ∀ i, (k < s.cfg.W → (r.lanes.get i).Reducing (s.regs.hyp.get i) (k - 1)) ∧
        (k = s.cfg.W → (r.lanes.get i).Finished (s.regs.hyp.get i))

/-- THE FUNCTIONAL CONTRACT, cycle by cycle (42_arbitration.md R190, R186, R187; derived there; the edge numbers rest on
D1, D5, D6, D10, D11): from any state whatever, a start edge with word x and then n edges with neither rst nor start. In
every cycle the outputs are: no result before the outcome edge, and from it on the slice of the highest valid hypothesis
(edge E(W+4)), or the uncorrectable code if none is valid (edge E(TMO_BOUND+6)). -/
def Obligations.UninterruptedDecodeMeetsItsContract : Prop :=
  ∀ (s : State) (x : Codeword s.cfg.W) (ds : List (Codeword s.cfg.W)) (p : List (BitVec (s.cfg.W + 2))),
    s.stim = startWord x :: (ds.map waitWord ++ p) →
    ∀ k, k ≤ ds.length → ∃ r : Regs s.cfg, run (k + 1) s = .next (s.after (k + 1) r) ∧
      (∀ w, IsWinner x w → r.outputs =
        if k < s.cfg.W + 4 then noResult s.cfg.D else corrected (slice s.cfg (hypothesis x w))) ∧
      (Uncorrectable x → r.outputs =
        if k < s.cfg.tmoBound + 6 then noResult s.cfg.D else uncorrectable s.cfg.D)

/-- Every decode ends (42_arbitration.md R187, 70_reset_and_hazards.md R250; derived there): done=1 no later than edge
TMO_BOUND+6 for every word, which for the bound W+2 is at most 2W+8 edges. -/
def Obligations.EveryDecodeEnds : Prop :=
  ∀ (s : State) (x : Codeword s.cfg.W) (ds : List (Codeword s.cfg.W)) (p : List (BitVec (s.cfg.W + 2))),
    s.stim = startWord x :: (ds.map waitWord ++ p) →
    (s.cfg.tmoBound + 6 ≤ ds.length →
      ∃ r : Regs s.cfg, run (ds.length + 1) s = .next (s.after (ds.length + 1) r) ∧ r.done = true) ∧
    (s.cfg.tmoBound = s.cfg.W + 2 → 2 * s.cfg.W + 8 ≤ ds.length →
      ∃ r : Regs s.cfg, run (ds.length + 1) s = .next (s.after (ds.length + 1) r) ∧ r.done = true)

/-- Zero-error correctness (42_arbitration.md R191; derived there): a valid word decodes to its own slice, for every H. -/
def Obligations.ValidWordsDecodeToThemselves : Prop :=
  ∀ (s : State) (v : Codeword s.cfg.W) (ds : List (Codeword s.cfg.W)) (p : List (BitVec (s.cfg.W + 2))),
    s.stim = startWord v :: (ds.map waitWord ++ p) → syndrome s.cfg v = 0 → s.cfg.W + 4 ≤ ds.length →
    ∃ r : Regs s.cfg, run (ds.length + 1) s = .next (s.after (ds.length + 1) r) ∧
      r.outputs = corrected (slice s.cfg v)

/-- Single-error correctness (42_arbitration.md R192; derived there): with nonzero distinct columns, a valid word with any
one bit inverted decodes to the valid word's slice. -/
def Obligations.SingleErrorsAreCorrected : Prop :=
  ∀ (s : State) (v : Codeword s.cfg.W) (b : Nat) (ds : List (Codeword s.cfg.W)) (p : List (BitVec (s.cfg.W + 2))),
    s.stim = startWord (Machine.flip v b) :: (ds.map waitWord ++ p) → GoodColumns s.cfg → syndrome s.cfg v = 0 →
    b < s.cfg.W → s.cfg.W + 4 ≤ ds.length →
    ∃ r : Regs s.cfg, run (ds.length + 1) s = .next (s.after (ds.length + 1) r) ∧
      r.outputs = corrected (slice s.cfg v)

/-- Failure and miscorrection (42_arbitration.md R193; derived there): a decode that has had time to end reports failure
exactly if no valid codeword lies within one bit of the received word; else it reports success. -/
def Obligations.FailureMeansNoCodewordWithinOneBit : Prop :=
  ∀ (s : State) (x : Codeword s.cfg.W) (ds : List (Codeword s.cfg.W)) (p : List (BitVec (s.cfg.W + 2))),
    s.stim = startWord x :: (ds.map waitWord ++ p) → s.cfg.tmoBound + 6 ≤ ds.length →
    ∃ r : Regs s.cfg, run (ds.length + 1) s = .next (s.after (ds.length + 1) r) ∧
      ((r.done = true ∧ r.success = false ∧ r.dout = 0) ↔
        syndrome s.cfg x ≠ 0 ∧ ∀ j, j < s.cfg.W → syndrome s.cfg (Machine.flip x j) ≠ 0) ∧
      (r.success = true ↔ syndrome s.cfg x = 0 ∨ ∃ j, j < s.cfg.W ∧ syndrome s.cfg (Machine.flip x j) = 0)

/-- Idempotence and preemption (70_reset_and_hazards.md R251, 41_orchestrator.md R159; derived there): after a start edge
the outputs of every later cycle depend on nothing before it. Two cores of one configuration in any two states, also
mid-decode or never reset, given the same words from a start edge on, resets and further starts among them, show the same
outputs in every cycle. -/
def Obligations.StartEdgeForgetsThePast : Prop :=
  ∀ (c : Config) (r₁ r₂ : Regs c) (n₁ n₂ : Nat) (x : Codeword c.W) (p : List (BitVec (c.W + 2))) (k : Nat),
    k ≤ p.length → ∃ q₁ q₂ : Regs c,
      run (k + 1) ⟨c, r₁, startWord x :: p, n₁⟩ = .next (⟨c, q₁, p.drop k, n₁ + (k + 1)⟩ : State) ∧
      run (k + 1) ⟨c, r₂, startWord x :: p, n₂⟩ = .next (⟨c, q₂, p.drop k, n₂ + (k + 1)⟩ : State) ∧
      q₁.outputs = q₂.outputs ∧ q₁.stage = q₂.stage

/-- The pseudo-statements do what they say (30_encoding.md R101; derived there): after DECODE x done=1 whatever the
outcome; after DECODE_FAST x done=1 exactly when success=1. It holds of every word the statement presents, so also of a
literal that is not W-bit, which only the model presents (log 18). -/
def Obligations.DecodeStatementsRunLongEnough : Prop :=
  ∀ (s : State) (x : Nat) (p : List (BitVec (s.cfg.W + 2))),
    (s.stim = Stmt.words s.cfg (.decode x) ++ p → ∃ r : Regs s.cfg,
      run (s.cfg.tmoBound + 7) s = .next (s.after (s.cfg.tmoBound + 7) r) ∧ r.done = true) ∧
    (s.stim = Stmt.words s.cfg (.decodeFast x) ++ p → ∃ r : Regs s.cfg,
      run (s.cfg.W + 5) s = .next (s.after (s.cfg.W + 5) r) ∧ (r.done = true ↔ r.success = true))
end

