-- ==== Sys2Proof/Laws/Bank.lean ====
section
/-! SUPPORT. The laws of banks: reading what was built, and equality by elements. -/

namespace Sys2Proof

variable {α : Type} {n : Nat}

@[simp] theorem Bank.get_ofFn (f : Fin n → α) (i : Fin n) : (Bank.ofFn f).get i = f i := by
  simp [Bank.ofFn, Bank.get]

@[simp] theorem Bank.get_const (a : α) (i : Fin n) : (Bank.const n a).get i = a := by
  simp [Bank.const]

@[ext] theorem Bank.ext_get {a b : Bank α n} (h : ∀ i, a.get i = b.get i) : a = b := by
  obtain ⟨da, ha⟩ := a
  obtain ⟨db, hb⟩ := b
  have : da = db := List.ext_getElem (ha.trans hb.symm) fun k hk _ => h ⟨k, ha ▸ hk⟩
  subst this
  rfl

@[simp] theorem Bank.ofFn_get (b : Bank α n) : Bank.ofFn b.get = b := by
  ext i
  simp

/-- A test of every element of a bank's data is a test at every index. -/
theorem Bank.all_data (b : Bank α n) (p : α → Bool) : b.data.all p = true ↔ ∀ i, p (b.get i) = true := by
  obtain ⟨d, rfl⟩ := b
  rw [List.all_eq_true, List.forall_mem_iff_forall_getElem]
  exact ⟨fun h i => h i.val i.isLt, fun h k hk => h ⟨k, hk⟩⟩

end Sys2Proof
end

