-- ==== Sys2Proof/Laws/Bits.lean ====
section
/-! SUPPORT. The laws of the GF(2) primitives, the packing of row bits, the priority scan and the two counters. -/

namespace Sys2Proof.Machine

open Sys2Proof

/-- XOR of bits distributes over XOR of values. -/
theorem xorBits_xor {w : Nat} (a b : BitVec w) (k : Nat) :
    xorBits (a ^^^ b) k = (xorBits a k ^^ xorBits b k) := by
  induction k with
  | zero => rfl
  | succ k ih =>
    simp only [xorBits, ih, BitVec.getLsbD_xor]
    cases xorBits a k <;> cases xorBits b k <;> cases a.getLsbD k <;> cases b.getLsbD k <;> rfl

@[simp] theorem xorBits_zero {w : Nat} (k : Nat) : xorBits (0#w) k = false := by
  induction k with
  | zero => rfl
  | succ k ih => simp [xorBits, ih]

/-- One value's bit after folding bit 0 only. -/
@[simp] theorem xorBits_one {w : Nat} (v : BitVec w) : xorBits v 1 = v.getLsbD 0 := by simp [xorBits]

/-- A value read in binary, first bit most significant, has its bits in reverse order. -/
theorem foldl_bits_testBit (d : List Bool) (s k : Nat) :
    (d.foldl (fun s b => 2 * s + b.toNat) s).testBit k =
      if h : k < d.length then d[d.length - 1 - k] else s.testBit (k - d.length) := by
  induction d generalizing s k with
  | nil => simp
  | cons b d ih =>
    rw [List.foldl_cons, ih]
    by_cases hk : k < d.length
    · have h1 : k < (b :: d).length := by simp; omega
      rw [dif_pos hk, dif_pos h1]
      have : (b :: d).length - 1 - k = (d.length - 1 - k) + 1 := by simp; omega
      simp only [this, List.getElem_cons_succ]
    · rw [dif_neg hk]
      by_cases he : k = d.length
      · subst he
        cases b <;> simp
      · have h1 : ¬ k < (b :: d).length := by simp; omega
        rw [dif_neg h1]
        have h2 : k - d.length = (k - (b :: d).length) + 1 := by simp; omega
        rw [h2, Nat.testBit_succ]
        congr 1
        have := Bool.toNat_lt b
        omega

/-- Bit `R-1-r` of the packed rows is row `r`. -/
theorem packRows_getLsbD {R : Nat} (a : Bank Bool R) (r : Fin R) :
    (packRows a).getLsbD (R - 1 - r.val) = a.get r := by
  obtain ⟨d, rfl⟩ := a
  have hr := r.isLt
  have hk : d.length - 1 - r.val < d.length := by omega
  have hb : d.length - 1 - (d.length - 1 - r.val) = r.val := by omega
  simp only [packRows, BitVec.getLsbD_ofNat, foldl_bits_testBit, dif_pos hk, decide_eq_true hk, Bool.true_and]
  simp only [Bank.get, hb]

/-- Two packings are equal only if every row is. -/
theorem packRows_inj {R : Nat} (a b : Bank Bool R) : packRows a = packRows b ↔ a = b := by
  refine ⟨fun h => ?_, fun h => h ▸ rfl⟩
  ext r
  rw [← packRows_getLsbD a r, ← packRows_getLsbD b r, h]

/-- An R-bit value is a packing exactly if bit `R-1-r` is row `r`. -/
theorem eq_packRows {R : Nat} (v : BitVec R) (a : Bank Bool R) :
    v = packRows a ↔ ∀ r : Fin R, v.getLsbD (R - 1 - r.val) = a.get r := by
  refine ⟨fun h r => h ▸ packRows_getLsbD a r, fun h => ?_⟩
  apply BitVec.eq_of_getLsbD_eq
  intro k hk
  have := h ⟨R - 1 - k, by omega⟩
  rw [← packRows_getLsbD a ⟨R - 1 - k, by omega⟩] at this
  simpa [show R - 1 - (R - 1 - k) = k by omega] using this

/-- Bit `j` of a value with bit `i` inverted. -/
theorem flip_getLsbD {w : Nat} (v : BitVec w) (i j : Nat) (hj : j < w) :
    (flip v i).getLsbD j = (v.getLsbD j ^^ decide (j = i)) := by
  simp only [flip, BitVec.getLsbD_xor, BitVec.getLsbD_shiftLeft, hj, decide_true, Bool.true_and, BitVec.getLsbD_one]
  congr 1
  by_cases h1 : j < i
  · have : j ≠ i := by omega
    simp [h1, this]
  · by_cases h2 : j = i
    · subst h2
      simp; omega
    · have : ¬ j - i = 0 := by omega
      simp [h2, this]

/-- Inverting a bit twice gives the value back. -/
@[simp] theorem flip_flip {w : Nat} (v : BitVec w) (i : Nat) : flip (flip v i) i = v := by
  simp [flip]

/-- The scan of the first `k` indices finds `w` exactly if `w` is the highest of them that passes. -/
theorem scan_eq_some {n : Nat} (p : Fin n → Bool) (k : Nat) (hk : k ≤ n) (w : Fin n) :
    scan p k hk = some w ↔ w.val < k ∧ p w = true ∧ ∀ j : Fin n, j.val < k → w < j → p j = false := by
  induction k with
  | zero => simp [scan]
  | succ k ih =>
    rw [scan]
    by_cases hp : p ⟨k, hk⟩ = true
    · rw [if_pos hp, Option.some.injEq]
      constructor
      · rintro rfl
        refine ⟨by simp, hp, fun j hj hlt => ?_⟩
        rw [Fin.lt_def] at hlt
        simp only at hlt
        omega
      · rintro ⟨h1, -, h3⟩
        by_contra hne
        have hlt : w < ⟨k, hk⟩ := by
          rw [Fin.lt_def]
          have : w.val ≠ k := fun h => hne (Fin.ext h.symm)
          simp only
          omega
        simp [h3 ⟨k, hk⟩ (by simp) hlt] at hp
    · rw [if_neg hp, ih (Nat.le_of_succ_le hk)]
      constructor
      · rintro ⟨h1, h2, h3⟩
        refine ⟨by omega, h2, fun j hj hlt => ?_⟩
        by_cases hjk : j.val = k
        · have : j = ⟨k, hk⟩ := Fin.ext hjk
          rw [this]
          exact Bool.eq_false_iff.mpr hp
        · exact h3 j (by omega) hlt
      · rintro ⟨h1, h2, h3⟩
        have : w.val ≠ k := by
          intro h
          have : w = ⟨k, hk⟩ := Fin.ext h
          exact hp (this ▸ h2)
        exact ⟨by omega, h2, fun j hj hlt => h3 j (by omega) hlt⟩

/-- The scan of the first `k` indices finds nothing exactly if none of them passes. -/
theorem scan_eq_none {n : Nat} (p : Fin n → Bool) (k : Nat) (hk : k ≤ n) :
    scan p k hk = none ↔ ∀ j : Fin n, j.val < k → p j = false := by
  induction k with
  | zero => simp [scan]
  | succ k ih =>
    rw [scan]
    by_cases hp : p ⟨k, hk⟩ = true
    · simp only [hp, if_true, reduceCtorEq, false_iff]
      intro h
      simp [h ⟨k, hk⟩ (by simp)] at hp
    · rw [if_neg hp, ih (Nat.le_of_succ_le hk)]
      refine ⟨fun h j hj => ?_, fun h j hj => h j (by omega)⟩
      by_cases hjk : j.val = k
      · have : j = ⟨k, hk⟩ := Fin.ext hjk
        rw [this]
        exact Bool.eq_false_iff.mpr hp
      · exact h j (by omega)

/-- The width of a counter holds every value up to the one it was chosen for. -/
theorem lt_two_pow_widthOf {v k : Nat} (h : k ≤ v) : k < 2 ^ Config.widthOf v :=
  Nat.lt_of_le_of_lt h Nat.lt_log2_self

/-- Wherever its width holds the result the timeout counter counts. -/
theorem nextTmo_toNat_of_lt {c : Config} {cycle : Nat} {t : BitVec c.tmoW} (hlt : t.toNat + 1 < 2 ^ c.tmoW) :
    (nextTmo c cycle t).toNat = t.toNat + 1 := by
  rw [nextTmo, if_pos hlt, BitVec.toNat_add]
  have h1 : (1#c.tmoW).toNat = 1 := by
    rw [BitVec.toNat_ofNat]
    exact Nat.mod_eq_of_lt (by omega)
  simp only [BitVec.ofNat_eq_ofNat, h1]
  exact Nat.mod_eq_of_lt hlt

/-- Within its range the timeout counter counts. -/
theorem nextTmo_toNat {c : Config} {cycle : Nat} {t : BitVec c.tmoW} (h : t.toNat ≤ c.tmoBound + 1) :
    (nextTmo c cycle t).toNat = t.toNat + 1 := nextTmo_toNat_of_lt (lt_two_pow_widthOf (by omega))

/-- Within its range a lane's bit counter counts. -/
theorem nextCount_toNat {c : Config} {cycle lane : Nat} {n : BitVec c.nW} (h : n.toNat < c.W - 1) :
    (nextCount c cycle lane n).toNat = n.toNat + 1 := by
  have hlt : n.toNat + 1 < 2 ^ c.nW := lt_two_pow_widthOf (by omega)
  rw [nextCount, if_pos hlt, BitVec.toNat_add]
  have h1 : (1#c.nW).toNat = 1 := by
    rw [BitVec.toNat_ofNat]
    exact Nat.mod_eq_of_lt (by omega)
  simp only [BitVec.ofNat_eq_ofNat, h1]
  exact Nat.mod_eq_of_lt hlt

/-- A lane's bit counter holds 1. -/
theorem one_toNat_nW (c : Config) : (1#c.nW).toNat = 1 := by
  rw [BitVec.toNat_ofNat]
  refine Nat.mod_eq_of_lt ?_
  have : 0 < c.nW := by simp [Config.nW, Config.widthOf]
  exact Nat.one_lt_two_pow (by omega)

end Sys2Proof.Machine
end

