-- ==== Sys2Proof/Laws/State.lean ====
section
/-! SUPPORT. Reading each field after each named update of the state, the registers and a lane. -/

namespace Sys2Proof.Machine

section StateUpdates

variable (s : State) (r : Regs s.cfg) (k : Nat) (p : List (BitVec (s.cfg.W + 2)))

@[simp] theorem State.withRegs_cfg : (s.withRegs r).cfg = s.cfg := rfl
@[simp] theorem State.withRegs_regs : (s.withRegs r).regs = r := rfl
@[simp] theorem State.withRegs_stim : (s.withRegs r).stim = s.stim := rfl
@[simp] theorem State.withRegs_cycle : (s.withRegs r).cycle = s.cycle := rfl
@[simp] theorem State.withRegs_self : s.withRegs s.regs = s := rfl

@[simp] theorem State.after_cfg : (s.after k r).cfg = s.cfg := rfl
@[simp] theorem State.after_regs : (s.after k r).regs = r := rfl
@[simp] theorem State.after_stim : (s.after k r).stim = s.stim.drop k := rfl
@[simp] theorem State.after_cycle : (s.after k r).cycle = s.cycle + k := rfl

@[simp] theorem State.after_zero : s.after 0 s.regs = s := by
  obtain ⟨c, r, p, n⟩ := s
  simp [State.after]

/-- Going `k` edges on and then `l` is going `k + l` edges on. -/
@[simp] theorem State.after_after (l : Nat) (r' : Regs s.cfg) :
    (s.after k r).after l r' = s.after (k + l) r' := by
  simp [State.after, List.drop_drop, Nat.add_assoc]

@[simp] theorem State.withStim_cfg : (s.withStim p).cfg = s.cfg := rfl
@[simp] theorem State.withStim_regs : (s.withStim p).regs = s.regs := rfl
@[simp] theorem State.withStim_stim : (s.withStim p).stim = p := rfl
@[simp] theorem State.withStim_cycle : (s.withStim p).cycle = s.cycle := rfl

/-- Registers of the same configuration are equal only if the states built on them are. -/
theorem State.withRegs_inj {r r' : Regs s.cfg} : s.withRegs r = s.withRegs r' ↔ r = r' := by
  simp [State.withRegs]

theorem State.after_inj {r r' : Regs s.cfg} : s.after k r = s.after k r' ↔ r = r' := by
  simp [State.after]

end StateUpdates

section RegsUpdates

variable {c : Config} (r : Regs c) (x : Codeword c.W) (t : Nat) (w : Fin (c.W + 1))

@[simp] theorem Regs.mapLanes_lanes (f : Fin (c.W + 1) → Lane c → Lane c) (i : Fin (c.W + 1)) :
    (r.mapLanes f).lanes.get i = f i (r.lanes.get i) := by simp [Regs.mapLanes]
@[simp] theorem Regs.mapLanes_hyp (f) : (r.mapLanes f).hyp = r.hyp := rfl
@[simp] theorem Regs.mapLanes_stage (f) : (r.mapLanes f).stage = r.stage := rfl
@[simp] theorem Regs.mapLanes_vstart (f) : (r.mapLanes f).vstart = r.vstart := rfl
@[simp] theorem Regs.mapLanes_tmo (f) : (r.mapLanes f).tmo = r.tmo := rfl
@[simp] theorem Regs.mapLanes_done (f) : (r.mapLanes f).done = r.done := rfl
@[simp] theorem Regs.mapLanes_success (f) : (r.mapLanes f).success = r.success := rfl
@[simp] theorem Regs.mapLanes_dout (f) : (r.mapLanes f).dout = r.dout := rfl

@[simp] theorem Regs.reset_hyp : r.reset.hyp = r.hyp := rfl
@[simp] theorem Regs.reset_stage : r.reset.stage = .idle := rfl
@[simp] theorem Regs.reset_vstart : r.reset.vstart = false := rfl
@[simp] theorem Regs.reset_tmo : r.reset.tmo = 0 := rfl
@[simp] theorem Regs.reset_done : r.reset.done = false := rfl
@[simp] theorem Regs.reset_success : r.reset.success = false := rfl
@[simp] theorem Regs.reset_dout : r.reset.dout = 0 := rfl
@[simp] theorem Regs.reset_lanes (i : Fin (c.W + 1)) : r.reset.lanes.get i = (r.lanes.get i).reset := by
  simp [Regs.reset, Regs.mapLanes]

@[simp] theorem Regs.load_hyp (i : Fin (c.W + 1)) :
    (r.load x).hyp.get i = if i.val < c.W then r.hyp.get i else x := by simp [Regs.load, writeReceived]
@[simp] theorem Regs.load_stage : (r.load x).stage = .gen := rfl
@[simp] theorem Regs.load_vstart : (r.load x).vstart = false := rfl
@[simp] theorem Regs.load_tmo : (r.load x).tmo = 0 := rfl
@[simp] theorem Regs.load_done : (r.load x).done = false := rfl
@[simp] theorem Regs.load_success : (r.load x).success = false := rfl
@[simp] theorem Regs.load_dout : (r.load x).dout = 0 := rfl
@[simp] theorem Regs.load_lanes : (r.load x).lanes = r.lanes := rfl

@[simp] theorem Regs.gen_hyp (i : Fin (c.W + 1)) :
    r.gen.hyp.get i = if i.val < c.W then r.received else r.hyp.get i := by simp [Regs.gen, writeSlots]
@[simp] theorem Regs.gen_stage : r.gen.stage = .flip := rfl
@[simp] theorem Regs.gen_vstart : r.gen.vstart = r.vstart := rfl
@[simp] theorem Regs.gen_tmo : r.gen.tmo = r.tmo := rfl
@[simp] theorem Regs.gen_done : r.gen.done = r.done := rfl
@[simp] theorem Regs.gen_success : r.gen.success = r.success := rfl
@[simp] theorem Regs.gen_dout : r.gen.dout = r.dout := rfl
@[simp] theorem Regs.gen_lanes : r.gen.lanes = r.lanes := rfl

@[simp] theorem Regs.flip_hyp (i : Fin (c.W + 1)) :
    r.flip.hyp.get i = if i.val < c.W then Machine.flip (r.hyp.get i) i.val else r.hyp.get i := by
  simp [Regs.flip, writeSlots]
@[simp] theorem Regs.flip_stage : r.flip.stage = .dispa := rfl
@[simp] theorem Regs.flip_vstart : r.flip.vstart = r.vstart := rfl
@[simp] theorem Regs.flip_tmo : r.flip.tmo = r.tmo := rfl
@[simp] theorem Regs.flip_done : r.flip.done = r.done := rfl
@[simp] theorem Regs.flip_success : r.flip.success = r.success := rfl
@[simp] theorem Regs.flip_dout : r.flip.dout = r.dout := rfl
@[simp] theorem Regs.flip_lanes : r.flip.lanes = r.lanes := rfl

@[simp] theorem Regs.dispa_hyp : r.dispa.hyp = r.hyp := rfl
@[simp] theorem Regs.dispa_stage : r.dispa.stage = .dispr := rfl
@[simp] theorem Regs.dispa_vstart : r.dispa.vstart = true := rfl
@[simp] theorem Regs.dispa_tmo : r.dispa.tmo = r.tmo := rfl
@[simp] theorem Regs.dispa_done : r.dispa.done = r.done := rfl
@[simp] theorem Regs.dispa_success : r.dispa.success = r.success := rfl
@[simp] theorem Regs.dispa_dout : r.dispa.dout = r.dout := rfl
@[simp] theorem Regs.dispa_lanes : r.dispa.lanes = r.lanes := rfl

@[simp] theorem Regs.dispr_hyp : r.dispr.hyp = r.hyp := rfl
@[simp] theorem Regs.dispr_stage : r.dispr.stage = .await := rfl
@[simp] theorem Regs.dispr_vstart : r.dispr.vstart = false := rfl
@[simp] theorem Regs.dispr_tmo : r.dispr.tmo = r.tmo := rfl
@[simp] theorem Regs.dispr_done : r.dispr.done = r.done := rfl
@[simp] theorem Regs.dispr_success : r.dispr.success = r.success := rfl
@[simp] theorem Regs.dispr_dout : r.dispr.dout = r.dout := rfl
@[simp] theorem Regs.dispr_lanes : r.dispr.lanes = r.lanes := rfl

@[simp] theorem Regs.succeed_hyp : (r.succeed t w).hyp = r.hyp := rfl
@[simp] theorem Regs.succeed_stage : (r.succeed t w).stage = .term := rfl
@[simp] theorem Regs.succeed_vstart : (r.succeed t w).vstart = r.vstart := rfl
@[simp] theorem Regs.succeed_tmo : (r.succeed t w).tmo = nextTmo c t r.tmo := rfl
@[simp] theorem Regs.succeed_done : (r.succeed t w).done = true := rfl
@[simp] theorem Regs.succeed_success : (r.succeed t w).success = true := rfl
@[simp] theorem Regs.succeed_dout : (r.succeed t w).dout = slice c (r.hyp.get w) := rfl
@[simp] theorem Regs.succeed_lanes : (r.succeed t w).lanes = r.lanes := rfl

@[simp] theorem Regs.timeOut_hyp : (r.timeOut t).hyp = r.hyp := rfl
@[simp] theorem Regs.timeOut_stage : (r.timeOut t).stage = .term := rfl
@[simp] theorem Regs.timeOut_vstart : (r.timeOut t).vstart = r.vstart := rfl
@[simp] theorem Regs.timeOut_tmo : (r.timeOut t).tmo = nextTmo c t r.tmo := rfl
@[simp] theorem Regs.timeOut_done : (r.timeOut t).done = true := rfl
@[simp] theorem Regs.timeOut_success : (r.timeOut t).success = r.success := rfl
@[simp] theorem Regs.timeOut_dout : (r.timeOut t).dout = r.dout := rfl
@[simp] theorem Regs.timeOut_lanes : (r.timeOut t).lanes = r.lanes := rfl

@[simp] theorem Regs.keepWaiting_hyp : (r.keepWaiting t).hyp = r.hyp := rfl
@[simp] theorem Regs.keepWaiting_stage : (r.keepWaiting t).stage = .await := rfl
@[simp] theorem Regs.keepWaiting_vstart : (r.keepWaiting t).vstart = r.vstart := rfl
@[simp] theorem Regs.keepWaiting_tmo : (r.keepWaiting t).tmo = nextTmo c t r.tmo := rfl
@[simp] theorem Regs.keepWaiting_done : (r.keepWaiting t).done = r.done := rfl
@[simp] theorem Regs.keepWaiting_success : (r.keepWaiting t).success = r.success := rfl
@[simp] theorem Regs.keepWaiting_dout : (r.keepWaiting t).dout = r.dout := rfl
@[simp] theorem Regs.keepWaiting_lanes : (r.keepWaiting t).lanes = r.lanes := rfl

end RegsUpdates

section LaneUpdates

variable {c : Config} (l : Lane c)

@[simp] theorem Lane.reset_vstage : l.reset.vstage = .vidle := rfl
@[simp] theorem Lane.reset_m : l.reset.m = l.m := rfl
@[simp] theorem Lane.reset_acc : l.reset.acc = l.acc := rfl
@[simp] theorem Lane.reset_n : l.reset.n = l.n := rfl
@[simp] theorem Lane.reset_syn : l.reset.syn = 0 := rfl
@[simp] theorem Lane.reset_vdone : l.reset.vdone = false := rfl

@[simp] theorem Lane.abort_vstage : l.abort.vstage = .vidle := rfl
@[simp] theorem Lane.abort_m : l.abort.m = l.m := rfl
@[simp] theorem Lane.abort_acc : l.abort.acc = l.acc := rfl
@[simp] theorem Lane.abort_n : l.abort.n = l.n := rfl
@[simp] theorem Lane.abort_syn : l.abort.syn = 0 := rfl
@[simp] theorem Lane.abort_vdone : l.abort.vdone = false := rfl

end LaneUpdates

end Sys2Proof.Machine
end

