-- ==== Sys2Proof/Laws/Step.lean ====
section
/-!
SUPPORT. What one edge does, said once: the operation each control word selects, that every operation answers a next
state, and `step_eq`, the whole edge as one function of the pre-edge registers and inputs.
-/

namespace Sys2Proof.Machine

open Sys2Proof

/-- The orchestrator's operation in a stage, with rst=0 and start=0 (30_encoding.md R94). -/
def stageOp : Stage → Instr
  | .idle => .idle
  | .gen => .gen
  | .flip => .flip
  | .dispa => .dispa
  | .dispr => .dispr
  | .await => .await
  | .term => .term
  | .reserved7 => .reservedStage7

/-- A lane's operation with rst=0 and start=0 (30_encoding.md R96). -/
def laneOp (vstart : Bool) (v : VStage) : Instr :=
  match vstart, v with
  | true, _ => .vMask
  | false, .vred => .vRed
  | false, .vidle => .vIdle

/-- Every orchestrator control word selects the operation of R94, rst before start before stage. -/
theorem decode_ocw_ok (rst start : Bool) (st : Stage) :
    decode .ocw (ocw rst start st).toNat =
      .ok (if rst then .reset else if start then .load else stageOp st) := by
  cases rst <;> cases start <;> cases st <;> rfl

/-- Every lane control word selects the operation of R96, rst before start before vstart before vstage. -/
theorem decode_lcw_ok (rst start vstart : Bool) (v : VStage) :
    decode .lcw (lcw rst start vstart v).toNat =
      .ok (if rst then .vReset else if start then .vAbort else laneOp vstart v) := by
  cases rst <;> cases start <;> cases vstart <;> cases v <;> rfl

theorem orchInstr_eq (s : State) :
    s.orchInstr = if s.rst then .reset else if s.start then .load else stageOp s.regs.stage := by
  rw [State.orchInstr, selected, State.ocw, decode_ocw_ok]

theorem laneInstr_eq (s : State) (i : Fin (s.cfg.W + 1)) :
    s.laneInstr i = if s.rst then .vReset else if s.start then .vAbort else
      laneOp s.regs.vstart (s.regs.lanes.get i).vstage := by
  rw [State.laneInstr, selected, State.lcw, decode_lcw_ok]

/-- The registers an operation leaves, at edge `cycle` with `x` on `data_input`. -/
def effect {c : Config} (cycle : Nat) (x : Codeword c.W) (r : Regs c) : Instr → Regs c
  | .reset => r.reset
  | .load => r.load x
  | .idle => r
  | .gen => r.gen
  | .flip => r.flip
  | .dispa => r.dispa
  | .dispr => r.dispr
  | .await => r.await cycle
  | .term => r
  | .reservedStage7 => r
  | .vReset => r.mapLanes fun _ => Lane.reset
  | .vAbort => r.mapLanes fun _ => Lane.abort
  | .vMask => r.mapLanes fun i => Lane.mask (r.hyp.get i)
  | .vRed => r.mapLanes fun i => Lane.reduce cycle i.val
  | .vIdle => r

/-- Every operation answers a next state that differs in registers only. -/
theorem exec_eq (i : Instr) (s : State) :
    exec i s = .next (s.withRegs (effect s.cycle s.dataInput s.regs i)) := by
  cases i <;> rfl

@[simp] theorem regsOr_next (s : State) (r r' : Regs s.cfg) : regsOr r' (.next (s.withRegs r)) = r := by
  simp [regsOr]

/-- No operation stops, so the edge does not. -/
theorem firstStop_next (l : List State) : firstStop (l.map .next) = none := by
  induction l with
  | nil => rfl
  | cons _ _ ih => simpa [firstStop] using ih

/-- Lane `i`'s registers after an edge (30_encoding.md R96). -/
def laneAfter {c : Config} (cycle : Nat) (rst start : Bool) (r : Regs c) (i : Fin (c.W + 1)) : Lane c :=
  if rst then (r.lanes.get i).reset
  else if start then (r.lanes.get i).abort
  else if r.vstart then (r.lanes.get i).mask (r.hyp.get i)
  else
    match (r.lanes.get i).vstage with
    | .vred => (r.lanes.get i).reduce cycle i.val
    | .vidle => r.lanes.get i

/-- The orchestrator's registers after an edge (30_encoding.md R94); the lanes in it are not those after the edge. -/
def orchAfter {c : Config} (cycle : Nat) (rst start : Bool) (x : Codeword c.W) (r : Regs c) : Regs c :=
  if rst then r.reset else if start then r.load x else effect cycle x r (stageOp r.stage)

/-- All registers after an edge. -/
def regsAfter {c : Config} (cycle : Nat) (rst start : Bool) (x : Codeword c.W) (r : Regs c) : Regs c :=
  { orchAfter cycle rst start x r with lanes := Bank.ofFn (laneAfter cycle rst start r) }

/-- What one lane's own operation leaves in that lane. -/
theorem effect_laneInstr (s : State) (i : Fin (s.cfg.W + 1)) :
    (effect s.cycle s.dataInput s.regs (s.laneInstr i)).lanes.get i = laneAfter s.cycle s.rst s.start s.regs i := by
  rw [laneInstr_eq, laneAfter]
  by_cases h1 : s.rst = true
  · simp [h1, effect]
  · by_cases h2 : s.start = true
    · simp [h1, h2, effect]
    · by_cases h3 : s.regs.vstart = true
      · simp [h1, h2, h3, effect, laneOp]
      · cases (s.regs.lanes.get i).vstage <;> simp [h1, h2, h3, effect, laneOp]

/-- THE EDGE. Every step answers the next state, one stimulus word and one edge on, with these registers. -/
theorem step_eq (s : State) :
    step s = .next (s.after 1 (regsAfter s.cycle s.rst s.start s.dataInput s.regs)) := by
  have hl : ∀ i, exec (s.laneInstr i) s =
      .next (s.withRegs (effect s.cycle s.dataInput s.regs (s.laneInstr i))) := fun i => exec_eq _ s
  have hstop : firstStop (exec s.orchInstr s :: List.ofFn fun i => exec (s.laneInstr i) s) = none := by
    have : (exec s.orchInstr s :: List.ofFn fun i => exec (s.laneInstr i) s) =
        (s.withRegs (effect s.cycle s.dataInput s.regs s.orchInstr) ::
          List.ofFn fun i => s.withRegs (effect s.cycle s.dataInput s.regs (s.laneInstr i))).map .next := by
      simp only [exec_eq, List.map_cons, List.map_ofFn]
      rfl
    rw [this, firstStop_next]
  rw [step, State.edge, hstop, Option.getD_none]
  congr 2
  simp only [merge, exec_eq, regsOr_next, regsAfter, effect_laneInstr]
  rw [orchInstr_eq, orchAfter]
  by_cases h1 : s.rst = true
  · simp [h1, effect]
  · by_cases h2 : s.start = true <;> simp [h1, h2, effect]

/-- The registers after a step are `regsAfter`. -/
theorem step_inv {s : State} {r : Regs s.cfg} (h : step s = .next (s.after 1 r)) :
    r = regsAfter s.cycle s.rst s.start s.dataInput s.regs := by
  rw [step_eq] at h
  injection h with h
  exact ((State.after_inj _ _).1 h).symm

/-- The registers after an operation are its `effect`. -/
theorem exec_inv {i : Instr} {s : State} {r : Regs s.cfg} (h : exec i s = .next (s.withRegs r)) :
    r = effect s.cycle s.dataInput s.regs i := by
  rw [exec_eq] at h
  injection h with h
  exact ((State.withRegs_inj _).1 h).symm

/-- Everything AWAIT can do: publish the winner, time out, or keep waiting (42_arbitration.md R182). -/
theorem await_cases {c : Config} (cycle : Nat) (r : Regs c) :
    (∃ w, arbitrate r = some w ∧ r.await cycle = r.succeed cycle w) ∨
    (arbitrate r = none ∧ c.tmoBound < r.tmo.toNat ∧ r.await cycle = r.timeOut cycle) ∨
    (arbitrate r = none ∧ r.tmo.toNat ≤ c.tmoBound ∧ r.await cycle = r.keepWaiting cycle) := by
  unfold Regs.await
  cases h : arbitrate r with
  | some w => exact .inl ⟨w, rfl, rfl⟩
  | none =>
    by_cases ht : c.tmoBound < r.tmo.toNat
    · exact .inr (.inl ⟨rfl, ht, by simp [timedOut, ht]⟩)
    · exact .inr (.inr ⟨rfl, by omega, by simp [timedOut, ht]⟩)

/-- AWAIT stays in AWAIT or goes to TERM. -/
theorem await_stage {c : Config} (cycle : Nat) (r : Regs c) :
    (r.await cycle).stage = .await ∨ (r.await cycle).stage = .term := by
  rcases await_cases cycle r with ⟨w, -, e⟩ | ⟨-, -, e⟩ | ⟨-, -, e⟩ <;> simp [e]

section AwaitFrame

variable {c : Config} (cycle : Nat) (r : Regs c)

@[simp] theorem await_hyp : (r.await cycle).hyp = r.hyp := by
  rcases await_cases cycle r with ⟨w, -, e⟩ | ⟨-, -, e⟩ | ⟨-, -, e⟩ <;> simp [e]
@[simp] theorem await_vstart : (r.await cycle).vstart = r.vstart := by
  rcases await_cases cycle r with ⟨w, -, e⟩ | ⟨-, -, e⟩ | ⟨-, -, e⟩ <;> simp [e]
@[simp] theorem await_lanes : (r.await cycle).lanes = r.lanes := by
  rcases await_cases cycle r with ⟨w, -, e⟩ | ⟨-, -, e⟩ | ⟨-, -, e⟩ <;> simp [e]

/-- AWAIT counts at every edge, whichever branch it takes (42_arbitration.md R182). -/
@[simp] theorem await_tmo : (r.await cycle).tmo = nextTmo c cycle r.tmo := by
  rcases await_cases cycle r with ⟨w, -, e⟩ | ⟨-, -, e⟩ | ⟨-, -, e⟩ <;> simp [e]

/-- AWAIT writes `success` and `dout` only where it publishes a winner (42_arbitration.md R182). -/
theorem await_keeps_result (h : arbitrate r = none) :
    (r.await cycle).success = r.success ∧ (r.await cycle).dout = r.dout := by
  rcases await_cases cycle r with ⟨w, e, -⟩ | ⟨-, -, e⟩ | ⟨-, -, e⟩ <;> simp_all

/-- AWAIT clears neither `done` nor `success` (42_arbitration.md R182). -/
theorem await_keeps_flags :
    (r.done = true → (r.await cycle).done = true) ∧ (r.success = true → (r.await cycle).success = true) := by
  rcases await_cases cycle r with ⟨w, -, e⟩ | ⟨-, -, e⟩ | ⟨-, -, e⟩ <;> simp [e]

end AwaitFrame

section AfterOneEdge

variable {c : Config} (cycle : Nat) (rst start : Bool) (x : Codeword c.W) (r : Regs c)

@[simp] theorem regsAfter_hyp : (regsAfter cycle rst start x r).hyp = (orchAfter cycle rst start x r).hyp := rfl
@[simp] theorem regsAfter_stage : (regsAfter cycle rst start x r).stage = (orchAfter cycle rst start x r).stage := rfl
@[simp] theorem regsAfter_vstart :
    (regsAfter cycle rst start x r).vstart = (orchAfter cycle rst start x r).vstart := rfl
@[simp] theorem regsAfter_tmo : (regsAfter cycle rst start x r).tmo = (orchAfter cycle rst start x r).tmo := rfl
@[simp] theorem regsAfter_done : (regsAfter cycle rst start x r).done = (orchAfter cycle rst start x r).done := rfl
@[simp] theorem regsAfter_success :
    (regsAfter cycle rst start x r).success = (orchAfter cycle rst start x r).success := rfl
@[simp] theorem regsAfter_dout : (regsAfter cycle rst start x r).dout = (orchAfter cycle rst start x r).dout := rfl
@[simp] theorem regsAfter_lanes (i : Fin (c.W + 1)) :
    (regsAfter cycle rst start x r).lanes.get i = laneAfter cycle rst start r i := by simp [regsAfter]

@[simp] theorem orchAfter_rst : orchAfter cycle true start x r = r.reset := rfl
@[simp] theorem orchAfter_start : orchAfter cycle false true x r = r.load x := rfl
@[simp] theorem orchAfter_run : orchAfter cycle false false x r = effect cycle x r (stageOp r.stage) := rfl

@[simp] theorem laneAfter_rst (i : Fin (c.W + 1)) : laneAfter cycle true start r i = (r.lanes.get i).reset := rfl
@[simp] theorem laneAfter_start (i : Fin (c.W + 1)) : laneAfter cycle false true r i = (r.lanes.get i).abort := rfl

theorem laneAfter_mask {r : Regs c} (h : r.vstart = true) (i : Fin (c.W + 1)) :
    laneAfter cycle false false r i = (r.lanes.get i).mask (r.hyp.get i) := by simp [laneAfter, h]

theorem laneAfter_reduce {r : Regs c} {i : Fin (c.W + 1)} (h : r.vstart = false)
    (hv : (r.lanes.get i).vstage = .vred) :
    laneAfter cycle false false r i = (r.lanes.get i).reduce cycle i.val := by simp [laneAfter, h, hv]

theorem laneAfter_hold {r : Regs c} {i : Fin (c.W + 1)} (h : r.vstart = false)
    (hv : (r.lanes.get i).vstage = .vidle) :
    laneAfter cycle false false r i = r.lanes.get i := by simp [laneAfter, h, hv]

end AfterOneEdge

section Runs

@[simp] theorem run_zero (s : State) : run 0 s = .next s := rfl

/-- A run of `k + 1` steps is one step and a run of `k`. -/
theorem run_succ (k : Nat) (s : State) :
    run (k + 1) s = run k (s.after 1 (regsAfter s.cycle s.rst s.start s.dataInput s.regs)) := by
  rw [run, step_eq]

/-- A run of a core whose step answers a next state goes on from there. -/
theorem core_run_succ (M : Host.Core) (k : Nat) (s t : M.State) (h : M.step s = .next t) :
    M.run (k + 1) s = M.run k t := by
  rw [Host.Core.run, h]

/-- The model's run is the host's run of the core. -/
theorem run_eq_core (k : Nat) (s : State) : run k s = Host.Core.run Sys2Proof.core k s := by
  induction k generalizing s with
  | zero => rfl
  | succ k ih =>
    rw [run_succ, ih]
    exact (core_run_succ Sys2Proof.core k s _ (step_eq s)).symm

/-- Every run answers a next state: that many edges later, with some registers. -/
theorem run_next (k : Nat) (s : State) : ∃ r, run k s = .next (s.after k r) := by
  induction k generalizing s with
  | zero => exact ⟨s.regs, by rw [State.after_zero, run_zero]⟩
  | succ k ih =>
    obtain ⟨r, hr⟩ := ih (s.after 1 (regsAfter s.cycle s.rst s.start s.dataInput s.regs))
    exact ⟨r, by rw [run_succ, hr, State.after_after, Nat.add_comm]⟩

/-- A run of `k` steps and then of `l`. -/
theorem run_add (k l : Nat) (s : State) (r : Regs s.cfg) (h : run k s = .next (s.after k r)) :
    run (k + l) s = run l (s.after k r) := by
  induction k generalizing s with
  | zero =>
    rw [run_zero] at h
    injection h with h
    rw [Nat.zero_add, ← h]
  | succ k ih =>
    rw [run_succ] at h
    rw [show k + 1 + l = (k + l) + 1 by omega, run_succ,
      ih (s.after 1 (regsAfter s.cycle s.rst s.start s.dataInput s.regs)) r
        (by rw [h, State.after_after, Nat.add_comm]),
      State.after_after, Nat.add_comm 1 k]

/-- A run of one step more. -/
theorem run_snoc (k : Nat) (s : State) (r : Regs s.cfg) (h : run k s = .next (s.after k r)) :
    run (k + 1) s = .next (s.after (k + 1) (regsAfter (s.after k r).cycle (s.after k r).rst (s.after k r).start
      (s.after k r).dataInput r)) := by
  rw [run_add k 1 s r h, run_succ, run_zero, State.after_after]

end Runs

section Inputs

variable {W : Nat} (rst start : Bool) (x : Codeword W)

/-- Bit `j` of a stimulus cycle word. -/
theorem scw_getLsbD (j : Nat) :
    (scw rst start x).getLsbD j =
      if j < W then x.getLsbD j else if j = W then start else if j = W + 1 then rst else false := by
  have h : (scw rst start x).getLsbD j = (BitVec.ofBool rst ++ BitVec.ofBool start ++ x).getLsbD j := by
    simp only [scw, BitVec.getLsbD_cast]
  rw [h, BitVec.getLsbD_append]
  by_cases h1 : j < W
  · simp [h1]
  · rw [if_neg h1, if_neg h1, BitVec.getLsbD_append]
    by_cases h2 : j = W
    · simp [h2]
    · rw [if_neg h2, if_neg (by omega : ¬ j - W < 1)]
      by_cases h3 : j = W + 1
      · simp [h3]
      · rw [if_neg h3]
        exact BitVec.getLsbD_of_ge _ _ (by omega)

@[simp] theorem scwRst_scw : scwRst (scw rst start x) = rst := by
  rw [scwRst, scw_getLsbD]
  simp

@[simp] theorem scwStart_scw : scwStart (scw rst start x) = start := by
  rw [scwStart, scw_getLsbD]
  simp

@[simp] theorem scwData_scw : scwData (scw rst start x) = x := by
  apply BitVec.eq_of_getLsbD_eq
  intro j hj
  rw [scwData, BitVec.getLsbD_setWidth, scw_getLsbD]
  simp [hj]

/-- The word presented next is the head of the stimulus program. -/
theorem State.scw_of_stim {s : State} {w : BitVec (s.cfg.W + 2)} {p : List (BitVec (s.cfg.W + 2))}
    (h : s.stim = w :: p) : s.scw = w := by simp [State.scw, h]

end Inputs

end Sys2Proof.Machine
end

