-- ==== Sys2Proof/Laws/Lanes.lean ====
section
/-!
SUPPORT. The laws of the lanes: what a masked lane and a reduced lane hold, in the terms of Safety.lean, and the predicates
AWAIT tests, read lane by lane.
-/

namespace Sys2Proof.Machine

open Sys2Proof

variable {c : Config}

/-- The syndrome by rows: an R-bit value is the syndrome exactly if bit R-1-r is the parity of masked row r. -/
theorem eq_syndrome (v : Codeword c.W) (s : Syndrome c.R) :
    s = syndrome c v ↔ ∀ r : Fin c.R, s.getLsbD (c.R - 1 - r.val) = parity (v &&& c.H.get r) := by
  simp [syndrome, eq_packRows]

@[simp] theorem syndrome_getLsbD (v : Codeword c.W) (r : Fin c.R) :
    (syndrome c v).getLsbD (c.R - 1 - r.val) = parity (v &&& c.H.get r) := (eq_syndrome v _).1 rfl r

/-- AWAIT's gate is a test of every lane. -/
theorem allDone_iff (r : Regs c) : allDone r = true ↔ ∀ i, (r.lanes.get i).vdone = true := by
  rw [allDone, Bank.all_data]

theorem zero_iff (r : Regs c) (i : Fin (c.W + 1)) : zero r i = true ↔ (r.lanes.get i).syn = 0 := by
  simp [zero]

theorem zero_eq_false (r : Regs c) (i : Fin (c.W + 1)) : zero r i = false ↔ (r.lanes.get i).syn ≠ 0 := by
  simp [zero]

/-- AWAIT publishes hypothesis `w` exactly if every lane is done and `w` is the highest zero lane. -/
theorem arbitrate_eq_some (r : Regs c) (w : Fin (c.W + 1)) :
    arbitrate r = some w ↔
      (∀ i, (r.lanes.get i).vdone = true) ∧ (r.lanes.get w).syn = 0 ∧
        ∀ j : Fin (c.W + 1), w < j → (r.lanes.get j).syn ≠ 0 := by
  rw [arbitrate]
  by_cases h : allDone r = true
  · rw [if_pos h, winner, scan_eq_some]
    simp only [(allDone_iff r).1 h, implies_true, true_and, zero_iff, w.isLt]
    refine and_congr_right fun _ => ⟨fun hj j hlt => ?_, fun hj j _ hlt => ?_⟩
    · exact (zero_eq_false r j).1 (hj j j.isLt hlt)
    · exact (zero_eq_false r j).2 (hj j hlt)
  · rw [if_neg h]
    simp only [reduceCtorEq, false_iff]
    exact fun hh => h ((allDone_iff r).2 hh.1)

/-- AWAIT publishes nothing exactly if some lane is not done or none is zero. -/
theorem arbitrate_eq_none (r : Regs c) :
    arbitrate r = none ↔
      (∃ i, (r.lanes.get i).vdone = false) ∨ ∀ i, (r.lanes.get i).syn ≠ 0 := by
  rw [arbitrate]
  by_cases h : allDone r = true
  · rw [if_pos h, winner, scan_eq_none]
    have hd : ¬ ∃ i, (r.lanes.get i).vdone = false := by
      rintro ⟨i, hi⟩
      simp [(allDone_iff r).1 h i] at hi
    simp only [hd, false_or]
    refine ⟨fun hj i => ?_, fun hj i _ => ?_⟩
    · exact (zero_eq_false r i).1 (hj i i.isLt)
    · exact (zero_eq_false r i).2 (hj i)
  · rw [if_neg h]
    simp only [true_iff]
    left
    by_contra hne
    exact h ((allDone_iff r).2 fun i => by
      have := not_exists.1 hne i
      simpa using this)

@[simp] theorem maskedRows_get (v : Codeword c.W) (r : Fin c.R) : (maskedRows c v).get r = v &&& c.H.get r := by
  simp [maskedRows]

/-- V_MASK on a lane of a core wider than one bit: one bit folded (40_parity_validator.md R124). -/
theorem Lane.mask_reducing (hW : 1 < c.W) (v : Codeword c.W) (l : Lane c) : (l.mask v).Reducing v 0 := by
  have hne : c.W ≠ 1 := by omega
  have e : l.mask v =
      { l with
        m := maskedRows c v, acc := Bank.ofFn fun r => ((maskedRows c v).get r).getLsbD 0, n := 1, vdone := false
        vstage := .vred } := by rw [Lane.mask, if_neg hne]
  rw [e]
  exact ⟨rfl, rfl, one_toNat_nW c, fun r => ⟨maskedRows_get v r, by simp⟩⟩

/-- V_MASK on a lane of a one-bit core completes at once (40_parity_validator.md R124 corner case c). -/
theorem Lane.mask_finished (hW : c.W = 1) (v : Codeword c.W) (l : Lane c) : (l.mask v).Finished v := by
  refine ⟨by simp [Lane.mask, hW], by simp [Lane.mask, hW], ?_⟩
  rw [eq_syndrome]
  intro r
  have hp : parity (v &&& c.H.get r) = xorBits (v &&& c.H.get r) 1 :=
    congrArg (xorBits (v &&& c.H.get r)) hW
  rw [hp, xorBits_one]
  simp [Lane.mask, hW, packRows_getLsbD]

/-- The accumulators after one more fold (40_parity_validator.md R125). -/
theorem Lane.folded_get {v : Codeword c.W} {t : Nat} {l : Lane c} (h : l.Reducing v t) (ht : t + 1 < c.W)
    (cycle i : Nat) (r : Fin c.R) : (l.folded cycle i).get r = xorBits (v &&& c.H.get r) (t + 2) := by
  obtain ⟨-, -, hn, hm⟩ := h
  have hlt : l.n.toNat < c.W := by omega
  rw [Lane.folded, Bank.get_ofFn, maskBit, if_pos hlt, (hm r).1, (hm r).2, hn]
  rfl

/-- V_RED before the last bit: one more bit folded. -/
theorem Lane.reduce_reducing {v : Codeword c.W} {t : Nat} {l : Lane c} (h : l.Reducing v t) (ht : t + 1 < c.W - 1)
    (cycle i : Nat) : (l.reduce cycle i).Reducing v (t + 1) := by
  have hn := h.2.2.1
  have hne : l.n.toNat ≠ c.W - 1 := by omega
  have e : l.reduce cycle i = { l with acc := l.folded cycle i, n := nextCount c cycle i l.n } := by
    rw [Lane.reduce, if_neg hne]
  rw [e]
  refine ⟨h.1, h.2.1, ?_, fun r => ⟨(h.2.2.2 r).1, Lane.folded_get h (by omega) cycle i r⟩⟩
  show (nextCount c cycle i l.n).toNat = t + 1 + 1
  rw [nextCount_toNat (by omega), hn]

/-- V_RED on the last bit: the syndrome is published (40_parity_validator.md R129). -/
theorem Lane.reduce_finished {v : Codeword c.W} {t : Nat} {l : Lane c} (h : l.Reducing v t) (ht : t + 1 = c.W - 1)
    (cycle i : Nat) : (l.reduce cycle i).Finished v := by
  have hn : l.n.toNat = c.W - 1 := by rw [h.2.2.1, ht]
  have e : l.reduce cycle i =
      { l with acc := l.folded cycle i, syn := packRows (l.folded cycle i), vdone := true, vstage := .vidle } := by
    rw [Lane.reduce, if_pos hn]
  rw [e]
  refine ⟨rfl, rfl, ?_⟩
  rw [eq_syndrome]
  intro r
  rw [packRows_getLsbD, Lane.folded_get h (by omega), parity]
  congr 1
  omega

end Sys2Proof.Machine
end

