-- ==== Sys2Proof/Laws/PerInstr.lean ====
section
/-! SUPPORT. Statements about every operation as syntax, one lemma per constructor. -/

namespace Sys2Proof.Laws.EncodeDecode

open Sys2Proof

/-- The word the encoder writes for a well-formed operation has the format the operation belongs to, fits it, and decodes
to the operation (30_encoding.md R94, R96). -/
def Statement (i : Instr) : Prop :=
  i.wf = true → (encode i).1 = i.format ∧ i.format.fits (encode i).2 = true ∧
    decode (encode i).1 (encode i).2 = .ok i

theorem reset : Statement .reset := fun _ => ⟨rfl, rfl, rfl⟩
theorem load : Statement .load := fun _ => ⟨rfl, rfl, rfl⟩
theorem idle : Statement .idle := fun _ => ⟨rfl, rfl, rfl⟩
theorem gen : Statement .gen := fun _ => ⟨rfl, rfl, rfl⟩
theorem flip : Statement .flip := fun _ => ⟨rfl, rfl, rfl⟩
theorem dispa : Statement .dispa := fun _ => ⟨rfl, rfl, rfl⟩
theorem dispr : Statement .dispr := fun _ => ⟨rfl, rfl, rfl⟩
theorem await : Statement .await := fun _ => ⟨rfl, rfl, rfl⟩
theorem term : Statement .term := fun _ => ⟨rfl, rfl, rfl⟩
theorem reservedStage7 : Statement .reservedStage7 := fun _ => ⟨rfl, rfl, rfl⟩
theorem vReset : Statement .vReset := fun _ => ⟨rfl, rfl, rfl⟩
theorem vAbort : Statement .vAbort := fun _ => ⟨rfl, rfl, rfl⟩
theorem vMask : Statement .vMask := fun _ => ⟨rfl, rfl, rfl⟩
theorem vRed : Statement .vRed := fun _ => ⟨rfl, rfl, rfl⟩
theorem vIdle : Statement .vIdle := fun _ => ⟨rfl, rfl, rfl⟩

end Sys2Proof.Laws.EncodeDecode
end

