-- ==== Sys2Proof/Tests/Slice0.lean ====
section
/-!
SUPPORT. Tests whose expected results come from spec/ (the rule or the vector of 95_test_vectors.md is named at each),
and, for every statement with hypotheses, a concrete state and operands that meet them.
-/

namespace Sys2Proof.Machine.Tests

open Sys2Proof Sys2Proof.Machine

/-! ## The checks that refuse (00_scope.md R7) -/

/-- The example configuration's parameters (00_scope.md R6). -/
def good : Params := ⟨6, 3, 3, [0b111100, 0b001101, 0b100110], 8, .high⟩

/-- The reason a build refuses, none where it builds. -/
def refusal (p : Params) : Option Misconfig :=
  match p.build with
  | .ok _ => none
  | .error e => some e

theorem test_example_builds : good.build = .ok Config.example6 := by rfl
theorem test_refuse_no_width : refusal { good with W := 0 } = some .noWidth := by decide
theorem test_refuse_no_rows : refusal { good with R := 0 } = some .noRows := by decide
theorem test_refuse_no_data : refusal { good with D := 0 } = some .noData := by decide
theorem test_refuse_data_too_wide : refusal { good with D := 7 } = some .dataTooWide := by decide
theorem test_refuse_row_count : refusal { good with R := 2 } = some .rowCount := by decide
theorem test_refuse_row_too_wide : refusal { good with H := [0b1000000, 1, 1] } = some .rowTooWide := by decide
theorem test_refuse_bound_too_small : refusal { good with tmoBound := 4 } = some .boundTooSmall := by decide
theorem test_smallest_bound_builds : refusal { good with tmoBound := 5 } = none := by decide
theorem test_ocw_too_wide : Format.ocw.fits 32 = false := by decide
theorem test_lcw_too_wide : Format.lcw.fits 16 = false := by decide
theorem test_literal_too_wide : Stmt.wf 6 (.start 64) = false := by decide
theorem test_waitx_too_wide : Stmt.wf 6 (.waitx 1 64) = false := by decide
theorem test_hold_too_wide : Stmt.wf 6 (.hold 64 1) = false := by decide
theorem test_decode_too_wide : Stmt.wf 6 (.decode 64) = false := by decide
theorem test_decode_fast_too_wide : Stmt.wf 6 (.decodeFast 64) = false := by decide
theorem test_every_operation_is_well_formed (i : Instr) : i.wf = true := by cases i <;> rfl

/-! ## Words written out from the encodings (30_encoding.md R94, R95, R96, R99) -/

theorem test_decode_reset : decode .ocw 0b10000 = .ok .reset := by rfl
theorem test_decode_reset_wins_over_start : decode .ocw 0b11010 = .ok .reset := by rfl
theorem test_decode_load : decode .ocw 0b01000 = .ok .load := by rfl
theorem test_decode_load_in_term : decode .ocw 0b01110 = .ok .load := by rfl
theorem test_decode_idle : decode .ocw 0b00000 = .ok .idle := by rfl
theorem test_decode_gen : decode .ocw 0b00001 = .ok .gen := by rfl
theorem test_decode_flip : decode .ocw 0b00010 = .ok .flip := by rfl
theorem test_decode_dispa : decode .ocw 0b00011 = .ok .dispa := by rfl
theorem test_decode_dispr : decode .ocw 0b00100 = .ok .dispr := by rfl
theorem test_decode_await : decode .ocw 0b00101 = .ok .await := by rfl
theorem test_decode_term : decode .ocw 0b00110 = .ok .term := by rfl
theorem test_decode_reserved : decode .ocw 0b00111 = .ok .reservedStage7 := by rfl
theorem test_decode_v_reset : decode .lcw 0b1111 = .ok .vReset := by rfl
theorem test_decode_v_abort_wins_over_pulse : decode .lcw 0b0110 = .ok .vAbort := by rfl
theorem test_decode_v_mask : decode .lcw 0b0010 = .ok .vMask := by rfl
theorem test_decode_v_mask_while_reducing : decode .lcw 0b0011 = .ok .vMask := by rfl
theorem test_decode_v_red : decode .lcw 0b0001 = .ok .vRed := by rfl
theorem test_decode_v_idle : decode .lcw 0b0000 = .ok .vIdle := by rfl
theorem test_table_word_ocw : decodeTableWord 8 0b00101 = some .await := by rfl
theorem test_table_word_lcw : decodeTableWord 4 0b0001 = some .vRed := by rfl
theorem test_stage_codes : ∀ s : Stage, Stage.ofCode s.code = s := by intro s; cases s <;> rfl

/-- START 0b100100 is 0x64 and RESET is 0x80 in the example configuration (30_encoding.md R99, Program A). -/
theorem test_stimulus_words :
    (assemble Config.example6 [.reset, .start 0b100100, .wait 2, .waitx 1 0b111111]).map BitVec.toNat =
      [0x80, 0x64, 0x00, 0x00, 0x3F] := by decide

/-! ## One operation on a small state (95_test_vectors.md) -/

/-- A next state that passes a test. -/
def answers (o : Host.Outcome State Fault Refusal) (p : State → Bool) : Bool :=
  match o with
  | .next t => p t
  | .fault _ => false
  | .refused _ => false

/-- The hypothesis slots as numbers. -/
def hyps (s : State) : List Nat := s.regs.hyp.data.map BitVec.toNat

/-- The example core in a stage, slots as given, next word to present as given. -/
def ex (st : Stage) (slots : List Nat) (w : BitVec 8) : State :=
  let r := Regs.atReset Config.example6
  ⟨Config.example6, { r with hyp := Bank.ofFn fun i => BitVec.ofNat 6 (slots.getD i.val 0), stage := st }, [w], 0⟩

/-- `ex` with every lane as given by index. -/
def exLanes (st : Stage) (slots : List Nat) (lane : Fin 7 → Lane Config.example6) : State :=
  ⟨Config.example6, { (ex st slots 0).regs with lanes := Bank.ofFn lane }, [0], 0⟩

/-- A lane of the example core after V_MASK of 0b100100 (L2-LN-1), with its counter at `n` and accumulators as given. -/
def lane36 (n : BitVec 3) (acc : List Bool) (h : acc.length = 3) : Lane Config.example6 where
  vstage := .vred
  m := ⟨[0b100100, 0b000100, 0b100100], rfl⟩
  acc := ⟨acc, h⟩
  n := n
  syn := 0
  vdone := false

/-- A finished lane with a syndrome. -/
def laneDone (syn : BitVec 3) : Lane Config.example6 :=
  { Lane.atReset Config.example6 with syn := syn, vdone := true }

/-- Every register of a lane, as numbers and truth values. -/
def laneView {c : Config} (l : Lane c) : VStage × List Nat × List Bool × Nat × Nat × Bool :=
  (l.vstage, l.m.data.map BitVec.toNat, l.acc.data, l.n.toNat, l.syn.toNat, l.vdone)

/-- The slots after FLIP of 0b100100 (L1-4). -/
def slots36 : List Nat := [0b100101, 0b100110, 0b100000, 0b101100, 0b110100, 0b000100, 0b100100]

/-- TERM with a result showing, then START 0b000011 (L2-OR-1). -/
def termState : State :=
  let s := ex .term slots36 0x43
  ⟨s.cfg, { s.regs with done := true, success := true, dout := 0b100, tmo := 6 }, s.stim, s.cycle⟩

/-- L2-RS-1. -/
theorem test_reset : answers (exec .reset termState) (fun t =>
    t.regs.stage == .idle && !t.regs.done && t.regs.dout.toNat == 0 && hyps t == slots36) = true := by decide
/-- L2-OR-1. -/
theorem test_load : answers (exec .load termState) (fun t =>
    hyps t == slots36.dropLast ++ [0b000011] && !t.regs.done && !t.regs.success && t.regs.tmo.toNat == 0 &&
    t.regs.stage == .gen) = true := by decide
/-- L2-OR-6. -/
theorem test_idle : answers (step (ex .idle [] 0x3F)) (fun t => t == (ex .idle [] 0x3F).after 1 (ex .idle [] 0x3F).regs) = true := by decide
/-- L2-OR-2. -/
theorem test_gen : answers (exec .gen (ex .gen [0, 0, 0, 0, 0, 0, 0b100100] 0)) (fun t =>
    hyps t == List.replicate 7 0b100100 && t.regs.stage == .flip) = true := by decide
/-- L2-OR-3. -/
theorem test_flip : answers (exec .flip (ex .flip (List.replicate 7 0b100100) 0)) (fun t =>
    hyps t == slots36 && t.regs.stage == .dispa) = true := by decide
/-- L2-OR-4. -/
theorem test_dispa : answers (exec .dispa (ex .dispa slots36 0)) (fun t =>
    t.regs.vstart && t.regs.stage == .dispr) = true := by decide
/-- L2-OR-5: the whole edge, lanes included. -/
theorem test_dispr_edge :
    answers (step ((ex .dispr slots36 0).withRegs { (ex .dispr slots36 0).regs with vstart := true })) (fun t =>
      !t.regs.vstart && t.regs.stage == .await &&
      t.regs.lanes.data.all fun l => l.vstage == .vred && l.n.toNat == 1) = true := by decide
/-- The example core in AWAIT with counter `t`, the lanes finished on the candidates of 0b100100: lane 0 alone is zero. -/
def awaitState (t : BitVec Config.example6.tmoW) : State :=
  let s := exLanes .await slots36 fun i => laneDone (syndrome Config.example6 (BitVec.ofNat 6 (slots36.getD i.val 0)))
  s.withRegs { s.regs with tmo := t }

/-- L2-AR-2: winner 0, at t = 5. -/
theorem test_await_success :
    answers (exec .await (awaitState 5)) (fun t =>
      t.regs.done && t.regs.success && t.regs.dout.toNat == 0b100 && t.regs.stage == .term &&
      t.regs.tmo.toNat == 6) = true := by decide
/-- L2-AR-7: the timeout at t = 9. -/
theorem test_await_timeout :
    answers (exec .await ((exLanes .await [] fun _ => laneDone 0b011).withRegs
      { (exLanes .await [] fun _ => laneDone 0b011).regs with tmo := 9 })) (fun t =>
      t.regs.done && !t.regs.success && t.regs.dout.toNat == 0 && t.regs.tmo.toNat == 10) = true := by decide
/-- L2-AR-10. -/
theorem test_term : answers (exec .term termState) (fun t => t == termState) = true := by decide
/-- 30_encoding.md R98: the reserved code holds. -/
theorem test_reserved : answers (step (ex .reserved7 slots36 0)) (fun t =>
    t == (ex .reserved7 slots36 0).after 1 (ex .reserved7 slots36 0).regs) = true := by decide
/-- 70_reset_and_hazards.md R240, lane part: `n` is not written. -/
theorem test_v_reset :
    answers (exec .vReset (exLanes .await slots36 fun _ => lane36 3 [true, true, true] rfl)) (fun t =>
      t.regs.lanes.data.all fun l => l.vstage == .vidle && !l.vdone && l.n.toNat == 3) = true := by decide
/-- L2-LN-6. -/
theorem test_v_abort :
    answers (exec .vAbort (exLanes .await slots36 fun _ => lane36 3 [true, true, true] rfl)) (fun t =>
      t.regs.lanes.data.all fun l => l.vstage == .vidle && !l.vdone && l.syn.toNat == 0 && l.n.toNat == 3) = true := by
  decide
/-- L2-LN-7: the abort wins at an edge that sees the pulse and start. -/
theorem test_abort_wins_over_mask :
    answers (step ((ex .dispr slots36 0x64).withRegs { (ex .dispr slots36 0x64).regs with vstart := true })) (fun t =>
      t.regs.stage == .gen && !t.regs.vstart && t.regs.lanes.data.all fun l => l.vstage == .vidle && !l.vdone) = true := by
  decide
/-- L2-LN-1 on lane 6, whose candidate is 0b100100. -/
theorem test_v_mask : answers (exec .vMask (ex .dispr slots36 0)) (fun t =>
    t.regs.lanes.data.getLast?.map laneView == some (laneView (lane36 1 [false, false, false] rfl))) = true := by decide
/-- L2-LN-2, the step n=2. -/
theorem test_v_red_folds :
    answers (exec .vRed (exLanes .await slots36 fun _ => lane36 2 [false, false, false] rfl)) (fun t =>
      t.regs.lanes.data.all fun l => laneView l == laneView (lane36 3 [true, true, true] rfl)) = true := by decide
/-- L2-LN-2, the completing step n=5: syn = 0b010. -/
theorem test_v_red_completes :
    answers (exec .vRed (exLanes .await slots36 fun _ => lane36 5 [true, true, true] rfl)) (fun t =>
      t.regs.lanes.data.all fun l => l.syn.toNat == 0b010 && l.vdone && l.vstage == .vidle) = true := by decide
/-- L2-LN-8. -/
theorem test_v_idle : answers (exec .vIdle (exLanes .term slots36 fun _ => laneDone 0b010)) (fun t =>
    t.regs.lanes.data.all fun l => laneView l == laneView (laneDone 0b010)) = true := by decide

/-- L2-SY-1 to L2-SY-4. -/
theorem test_syndromes :
    [0b111111, 0b101010, 0b010101, 0b000101].map (fun v => (syndrome Config.example6 (BitVec.ofNat 6 v)).toNat) =
      [0b011, 0b010, 0b001, 0b101] := by decide
/-- L2-SY-5: the columns. -/
theorem test_columns : (List.range 6).map (fun j => (col Config.example6 j).toNat) =
    [0b010, 0b001, 0b111, 0b110, 0b100, 0b101] := by decide

/-! ## Configurations the boundary cases need -/

/-- The W=4 configuration of L2-SY-7 and L2-AR-3: a zero row and two equal rows. -/
def tie : Config where
  W := 4
  R := 3
  D := 2
  H := ⟨[0b0000, 0b1011, 0b1011], rfl⟩
  tmoBound := 6
  dataSlice := .high
  W_pos := by decide
  R_pos := by decide
  D_pos := by decide
  D_le := by decide
  tmo_ok := by decide

/-- The smallest core, Program F's, with the slice LOW. -/
def one : Config where
  W := 1
  R := 1
  D := 1
  H := ⟨[0b1], rfl⟩
  tmoBound := 3
  dataSlice := .low
  W_pos := by decide
  R_pos := by decide
  D_pos := by decide
  D_le := by decide
  tmo_ok := by decide

/-- L2-LN-5: with W=1 the mask edge completes. -/
theorem test_v_mask_one_bit :
    answers (exec .vMask ⟨one, { Regs.atReset one with hyp := Bank.const 2 1 }, [], 0⟩) (fun t =>
      t.regs.lanes.data.all fun l => l.syn.toNat == 1 && l.vdone && l.vstage == .vidle) = true := by decide
/-- L2-SY-7: the zero row's bit is 0, the equal rows' bits agree. -/
theorem test_zero_and_equal_rows : (syndrome tie 0b1000).toNat = 0b011 := by decide

/-! ## Witnesses: the hypotheses of each statement are met -/

/-- A stimulus program: START 0b100100 and `n` words of WAIT. -/
def startAndWait (n : Nat) : List (BitVec (Config.example6.W + 2)) :=
  startWord (0b100100 : Codeword 6) :: ((List.replicate n (0 : Codeword 6)).map waitWord ++ [])

theorem witness_EveryControlWordHasExactlyOneRow :
    Format.ocw.fits 31 = true ∧ Format.ocw.fits 32 = false ∧ Format.lcw.fits 15 = true ∧ Format.lcw.fits 16 = false := by
  decide
theorem witness_StimulusStatementsPresentTheirWords : 63 < 2 ^ Config.example6.W := by decide
theorem witness_BuildKeepsTheParameters : ∃ (p : Params) (c : Config), p.build = .ok c := ⟨good, _, rfl⟩
theorem witness_SyndromeBitsAreRowParities :
    tie.H.get (0 : Fin 3) = 0 ∧ tie.H.get (1 : Fin 3) = tie.H.get (2 : Fin 3) ∧ syndrome tie 0b0100 = 0 := by decide
theorem witness_SyndromeIsLinear : 5 < Config.example6.W := by decide
theorem witness_GoodColumnsLeaveOneHypothesis :
    GoodColumns Config.example6 ∧ Valid (c := Config.example6) 0b100100 0 := by
  refine ⟨⟨by decide, ?_⟩, .inr (by decide)⟩
  have h : ∀ i j : Fin 6, col Config.example6 i = col Config.example6 j → i = j := by decide
  intro i j hi hj e
  exact congrArg Fin.val (h ⟨i, hi⟩ ⟨j, hj⟩ e)
theorem witness_CandidatesDifferInTheirOwnBits :
    (5 : Fin 7).val < Config.example6.W ∧ (0 : Fin 7).val < Config.example6.W ∧ (5 : Fin 7) ≠ 0 := by decide
theorem witness_SliceTakesTheChosenBits :
    (2 < Config.example6.D ∧ Config.example6.dataSlice = .high) ∧ (0 < one.D ∧ one.dataSlice = .low ∧ one.D = one.W) := by
  decide
theorem witness_LoadLatchesTheReceivedWord : (5 : Fin 7).val < termState.cfg.W ∧ (0 : Fin 2).val < one.W := by decide
theorem witness_GenCopiesTheReceivedWord : (5 : Fin 7).val < Config.example6.W ∧ (0 : Fin 2).val < one.W := by decide
theorem witness_FlipInvertsOneBitPerSlot :
    (5 : Fin 7).val < Config.example6.W ∧ 5 < Config.example6.W ∧ (0 : Fin 2).val < one.W := by decide
theorem witness_IdleWaitsForStart :
    let s := ex .idle [] 0
    s.rst = false ∧ s.start = false ∧ s.regs.stage = .idle ∧ s.regs.vstart = false ∧
      ∀ i, (s.regs.lanes.get i).vstage = .vidle := by decide
theorem witness_IdleWaitsForStart_entered :
    let s := ex .term [] 0x80
    s.regs.stage ≠ .idle ∧ s.rst = true ∧ answers (step s) (fun t => t.regs.stage == .idle) = true := by decide
theorem witness_DispaAssertsThePulse :
    let s := ex .dispa slots36 0
    s.rst = false ∧ s.start = false ∧ s.regs.stage = .dispa ∧ s.regs.vstart = false ∧
      ∀ i, (s.regs.lanes.get i).vstage = .vidle := by decide
/-- The example core at the DISPR edge. -/
def disprState : State := (ex .dispr slots36 0).withRegs { (ex .dispr slots36 0).regs with vstart := true }
theorem witness_DisprReleasesThePulseAndLanesStart :
    disprState.rst = false ∧ disprState.start = false ∧ disprState.regs.stage = .dispr ∧
      disprState.regs.vstart = true ∧ 1 < disprState.cfg.W ∧ one.W = 1 := by decide
theorem witness_AwaitArbitratesOnlyWhenAllLanesAreDone : allDone disprState.regs = false := by decide
/-- Every lane done, lanes 2 and 6 zero: the winner is 6. -/
def winState : State := exLanes .await slots36 fun i => laneDone (if i.val = 2 ∨ i.val = 6 then 0 else 1)
theorem witness_AwaitPublishesTheWinner :
    (∀ i, (winState.regs.lanes.get i).vdone = true) ∧ (winState.regs.lanes.get (6 : Fin 7)).syn = 0 ∧
      (∀ j : Fin 7, 6 < j → (winState.regs.lanes.get j).syn ≠ 0) ∧
      winState.regs.tmo.toNat < winState.cfg.tmoBound + 2 := by decide
/-- No lane done, the counter at 9, just past the bound 8. -/
def lateState : State :=
  (ex .await slots36 0).withRegs { (ex .await slots36 0).regs with tmo := 9 }
theorem witness_AwaitTimesOutOrKeepsWaiting :
    ((lateState.regs.lanes.get (0 : Fin 7)).vdone = false ∧ lateState.cfg.tmoBound < lateState.regs.tmo.toNat ∧
      lateState.regs.tmo.toNat < lateState.cfg.tmoBound + 2) ∧
    (ex .await slots36 0).regs.tmo.toNat ≤ (ex .await slots36 0).cfg.tmoBound ∧
    ∀ i, ((exLanes .await [] fun _ => laneDone 0b011).regs.lanes.get i).syn ≠ 0 := by decide
/-- No lane done, the counter at the bound 8, where the two clauses meet: AWAIT keeps waiting. -/
def boundState : State :=
  (ex .await slots36 0).withRegs { (ex .await slots36 0).regs with tmo := 8 }
theorem witness_AwaitTimesOutOrKeepsWaiting_bound :
    (boundState.regs.lanes.get (0 : Fin 7)).vdone = false ∧ boundState.regs.tmo.toNat = boundState.cfg.tmoBound ∧
      boundState.regs.tmo.toNat + 1 < 2 ^ boundState.cfg.tmoW ∧
      answers (exec .await boundState) (fun t => t.regs.stage == .await && t.regs.tmo.toNat == 9) = true := by decide
theorem witness_TermHoldsTheResult :
    let s := ex .term slots36 0
    s.rst = false ∧ s.start = false ∧ s.regs.stage = .term ∧ s.regs.vstart = false ∧
      ∀ i, (s.regs.lanes.get i).vstage = .vidle := by decide
/-- The state L2-AR-2 ends in: the result of decoding 0b100100. -/
def resultState : State :=
  ⟨_, { (awaitState 6).regs with stage := .term, done := true, success := true, dout := 0b100 }, [0], 0⟩
theorem witness_TermHoldsTheResult_invariant : DecodeInv resultState.regs ∧ resultState.regs.stage = .term := by
  refine ⟨⟨rfl, ?_, ⟨rfl, fun _ => rfl, ?_⟩, ?_, ?_, ?_, ?_, ?_, ?_⟩, rfl⟩
  · exact fun h => absurd h (by decide)
  · exact fun h => absurd h (by decide)
  · unfold CounterInv; decide
  · exact fun _ h => absurd rfl h
  · exact fun h => absurd h (by decide)
  · unfold Candidates; decide
  · exact fun h => absurd h (by decide)
  · refine fun _ => ⟨by unfold Lane.Finished; decide, .inl ⟨(0 : Fin 7), ?_, by decide, by decide⟩⟩
    unfold IsWinner Valid; decide
theorem witness_TermHoldsTheResult_left :
    termState.regs.stage = .term ∧ answers (step termState) (fun t => t.regs.stage != .term) = true := by decide
theorem witness_ReservedStageHolds :
    (ex .reserved7 [] 0).regs.stage = .reserved7 ∧ (ex .idle [] 0).regs.stage ≠ .reserved7 := by decide
theorem witness_ResetAndAbortClearTheLanes :
    (Instr.vReset = .vReset ∨ Instr.vReset = .vAbort) ∧ (Instr.vAbort = .vReset ∨ Instr.vAbort = .vAbort) := by decide
theorem witness_MaskLatchesTheCandidate : 1 < Config.example6.W ∧ one.W = 1 := by decide
theorem witness_ReduceFoldsOneBit :
    let l := lane36 5 [true, true, true] rfl
    let k := lane36 4 [true, true, true] rfl
    (l.n.toNat < 6 ∧ l.n.toNat = 6 - 1) ∧ k.n.toNat ≠ 6 - 1 ∧ k.n.toNat + 1 < 2 ^ Config.example6.nW := by decide
theorem witness_IdleLanesHold :
    let s := exLanes .term slots36 fun _ => laneDone 0b010
    s.rst = false ∧ s.start = false ∧ s.regs.vstart = false ∧ (s.regs.lanes.get (0 : Fin 7)).vstage = .vidle := by decide
theorem witness_OnlyTheNamedWritersWrite :
    ∃ r, exec .load termState = .next (termState.withRegs r) ∧ r.hyp ≠ termState.regs.hyp ∧
      r.outputs ≠ termState.regs.outputs := ⟨_, rfl, by decide, by decide⟩
/-- Each other orchestrator register is changed by one of its writers. -/
theorem witness_OnlyTheNamedWritersWrite_orchestrator :
    answers (exec .gen (ex .gen [1] 0)) (fun t => hyps t != hyps (ex .gen [1] 0) && t.regs.stage == .flip) = true ∧
      answers (exec .dispr disprState) (fun t => !t.regs.vstart) = true ∧ disprState.regs.vstart = true ∧
      answers (exec .await (awaitState 5)) (fun t => t.regs.done && t.regs.success && t.regs.dout.toNat == 4) = true ∧
      arbitrate (awaitState 5).regs = some (0 : Fin 7) :=
  ⟨by decide, by decide, rfl, by decide, rfl⟩
theorem witness_OnlyTheNamedWritersWrite_lane :
    let s := exLanes .await slots36 fun _ => lane36 5 [true, true, true] rfl
    ∃ r, exec .vRed s = .next (s.withRegs r) ∧
      (r.lanes.get (0 : Fin 7)).acc ≠ (s.regs.lanes.get (0 : Fin 7)).acc ∧
      (r.lanes.get (0 : Fin 7)).syn ≠ (s.regs.lanes.get (0 : Fin 7)).syn := ⟨_, rfl, by decide, by decide⟩
theorem witness_StepRunsTheDecodedOperations :
    decode .ocw disprState.ocw.toNat = .ok .dispr ∧ decode .lcw (disprState.lcw (0 : Fin 7)).toNat = .ok .vMask :=
  ⟨rfl, rfl⟩
theorem witness_PlacedControlWordIsSelected :
    decodeTableWord 8 0b00110 = some .term ∧ decodeTableWord 4 0b0110 = some .vAbort := ⟨rfl, rfl⟩
theorem witness_StageTransitionTable :
    ∃ r, step disprState = .next (disprState.after 1 r) ∧ disprState.rst = false ∧ disprState.start = false ∧
      disprState.regs.stage = .dispr := ⟨_, rfl, by decide, by decide, by decide⟩
theorem witness_StageTransitionTable_start : termState.rst = false ∧ termState.start = true := by decide
theorem witness_DataInputIsSampledOnlyAtStartEdges :
    ((true = true ∨ true = false) ∧ (false = true ∨ false = false)) ∧
      ((ex .gen [] 0).withStim (scw true true (3 : Codeword 6) :: [])).rst = true ∧
      ((ex .gen [] 0).withStim (startWord (3 : Codeword 6) :: [])).start = true := by decide
theorem witness_ResetThenStartTakePriority :
    (ex .term [] 0xC3).rst = true ∧ termState.rst = false ∧ termState.start = true := by decide
theorem witness_PulseOnlyInDispr :
    PulseInv disprState.regs ∧ ∃ r, step disprState = .next (disprState.after 1 r) := ⟨rfl, _, rfl⟩
theorem witness_LanesStayInLockStep :
    let s := exLanes .await slots36 fun _ => lane36 3 [true, true, true] rfl
    LockStep s.regs ∧ (s.regs.lanes.get (0 : Fin 7)).vstage = .vred ∧ ∃ r, step s = .next (s.after 1 r) :=
  ⟨by unfold LockStep; decide, rfl, _, rfl⟩
theorem witness_OutcomeCodesStayLegal :
    OutcomeInv termState.regs ∧ ∃ r, step termState = .next (termState.after 1 r) :=
  ⟨⟨rfl, fun _ => rfl, fun h => absurd h (by decide)⟩, _, rfl⟩
theorem witness_TimeoutCounterNeverWraps :
    (CounterInv lateState.regs ∧ lateState.rst = false ∧ lateState.start = false ∧ lateState.regs.stage = .await ∧
      ∃ r, step lateState = .next (lateState.after 1 r)) ∧
    CounterInv termState.regs ∧ termState.start = true ∧ termState.regs.tmo ≠ 0 ∧
      ∃ r, step termState = .next (termState.after 1 r) :=
  ⟨⟨by unfold CounterInv; decide, by decide, by decide, rfl, _, rfl⟩, by unfold CounterInv; decide, by decide, by decide,
    _, rfl⟩
/-- A core in GEN after a start edge, its lanes cleared. -/
theorem witness_EveryStepKeepsTheDecodeInvariant :
    let s := ex .gen [0, 0, 0, 0, 0, 0, 0b100100] 0
    DecodeInv s.regs ∧ ∃ r, step s = .next (s.after 1 r) := by
  refine ⟨⟨rfl, ?_, ⟨rfl, ?_, ?_⟩, ?_, ?_, ?_, ?_, ?_, ?_⟩, _, rfl⟩
  · exact fun h => absurd h (by decide)
  · exact fun h => absurd h (by decide)
  · exact fun _ => rfl
  · unfold CounterInv; decide
  · exact fun _ _ => ⟨rfl, by unfold Lane.Cleared; decide⟩
  · exact fun h => absurd h (by decide)
  · exact fun h => absurd h (by decide)
  · exact fun h => absurd h (by decide)
  · exact fun h => absurd h (by decide)
/-- In AWAIT at t = 5 (L2-AR-2), the lanes just finished. -/
theorem witness_EveryStepKeepsTheDecodeInvariant_await :
    DecodeInv (awaitState 5).regs ∧ (awaitState 5).regs.stage = .await ∧
      ∃ r, step (awaitState 5) = .next ((awaitState 5).after 1 r) := by
  refine ⟨⟨rfl, ?_, ⟨rfl, ?_, fun _ => rfl⟩, ?_, ?_, ?_, ?_, ?_, ?_⟩, rfl, _, rfl⟩
  · exact fun h => absurd h (by decide)
  · exact fun h => absurd h (by decide)
  · unfold CounterInv; decide
  · exact fun h => absurd rfl h
  · exact fun h => absurd h (by decide)
  · unfold Candidates; decide
  · refine fun _ => ⟨fun h => absurd h (by decide), ?_, fun h => absurd h (by decide)⟩
    unfold Lane.Finished; decide
  · exact fun h => absurd h (by decide)
theorem witness_EveryStepKeepsTheDecodeInvariant_term :
    DecodeInv resultState.regs ∧ ∃ r, step resultState = .next (resultState.after 1 r) :=
  ⟨witness_TermHoldsTheResult_invariant.1, _, rfl⟩
theorem witness_StartEdgeEstablishesTheInvariant :
    termState.start = true ∧ termState.rst = false ∧ ∃ r, step termState = .next (termState.after 1 r) :=
  ⟨by decide, by decide, _, rfl⟩
theorem witness_LanesFinishAfterExactlyWEdges :
    let s := disprState.withStim ((List.replicate 6 (0 : Codeword 6)).map waitWord ++ [])
    s.regs.stage = .dispr ∧ s.regs.vstart = true ∧
      s.stim = (List.replicate 6 (0 : Codeword 6)).map waitWord ++ [] ∧
      (List.replicate 6 (0 : Codeword 6)).length = s.cfg.W := ⟨rfl, rfl, rfl, rfl⟩
/-- The stimulus hypothesis of the statements about whole decodes, long enough for either outcome (TMO_BOUND+6 = 14, 2W+8 =
20), from a state mid-result; the word has the winner 0 and the valid word behind it. -/
theorem witness_UninterruptedDecodeMeetsItsContract :
    (termState.withStim (startAndWait 20)).stim =
        startWord (0b100100 : Codeword 6) :: ((List.replicate 20 (0 : Codeword 6)).map waitWord ++ []) ∧
      IsWinner (c := Config.example6) 0b100100 0 ∧ Uncorrectable (c := Config.example6) 0b000011 := by
  refine ⟨rfl, ⟨.inr (by decide), ?_⟩, ?_⟩
  · unfold Valid; decide
  · unfold Uncorrectable Valid; decide
theorem witness_EveryDecodeEnds :
    Config.example6.tmoBound + 6 ≤ (List.replicate 20 (0 : Codeword 6)).length ∧
      Config.example6.tmoBound = Config.example6.W + 2 ∧
      2 * Config.example6.W + 8 ≤ (List.replicate 20 (0 : Codeword 6)).length := by decide
theorem witness_ValidWordsDecodeToThemselves : syndrome Config.example6 0b100101 = 0 := by decide
theorem witness_SingleErrorsAreCorrected :
    Machine.flip (0b100101 : Codeword 6) 0 = 0b100100 ∧ syndrome Config.example6 0b100101 = 0 ∧
      0 < Config.example6.W ∧ Config.example6.W + 4 ≤ (List.replicate 20 (0 : Codeword 6)).length := by decide
/-- Long enough for the failure (TMO_BOUND+6 = 14), with a word on either side of the equivalence. -/
theorem witness_FailureMeansNoCodewordWithinOneBit :
    (termState.withStim (startWord (0b000011 : Codeword 6) :: ((List.replicate 20 (0 : Codeword 6)).map waitWord ++ []))).stim =
        startWord (0b000011 : Codeword 6) :: ((List.replicate 20 (0 : Codeword 6)).map waitWord ++ []) ∧
      Config.example6.tmoBound + 6 ≤ (List.replicate 20 (0 : Codeword 6)).length ∧
      (syndrome Config.example6 0b000011 ≠ 0 ∧
        ∀ j, j < Config.example6.W → syndrome Config.example6 (Machine.flip 0b000011 j) ≠ 0) ∧
      syndrome Config.example6 (Machine.flip 0b100100 0) = 0 := ⟨rfl, by decide, by decide, by decide⟩
theorem witness_StartEdgeForgetsThePast : 1 ≤ [resetWord Config.example6.W].length := by decide
theorem witness_DecodeStatementsRunLongEnough :
    ((ex .idle [] 0).withStim (Stmt.words Config.example6 (.decode 3) ++ [])).stim =
        Stmt.words Config.example6 (.decode 3) ++ [] ∧
      ((ex .idle [] 0).withStim (Stmt.words Config.example6 (.decodeFast 3) ++ [])).stim =
        Stmt.words Config.example6 (.decodeFast 3) ++ [] := ⟨rfl, rfl⟩

end Sys2Proof.Machine.Tests
end

section
/-!
SUPPORT. The proofs about the parity validator (40_parity_validator.md): the syndrome row by row, and the lanes at rest.
-/

namespace Sys2Proof.Machine

open Sys2Proof

/-- The XOR of the lowest `k` bits is 1 exactly if an odd number of them is 1 (00_scope.md R10). -/
theorem xorBits_eq_true_iff {w : Nat} (v : BitVec w) (k : Nat) :
    xorBits v k = true ↔ ((List.range k).filter fun j => v.getLsbD j).length % 2 = 1 := by
  induction k with
  | zero => simp [xorBits]
  | succ k ih =>
    rw [xorBits, List.range_succ, List.filter_append, List.length_append]
    cases hbit : v.getLsbD k with
    | false => simpa [hbit] using ih
    | true =>
      have odd_succ (n : Nat) : (n + 1) % 2 = 1 ↔ ¬ n % 2 = 1 := by omega
      simp [hbit, odd_succ, ← ih]

/-- Parity is the population count modulo 2 (40_parity_validator.md R121). -/
theorem parity_eq_true_iff {w : Nat} (v : BitVec w) : parity v = true ↔ popcount v % 2 = 1 :=
  xorBits_eq_true_iff v w

@[simp] theorem parity_zero (w : Nat) : parity (0#w) = false := xorBits_zero w

/-- A word is a codeword exactly if it passes every row (40_parity_validator.md R120). -/
theorem syndrome_eq_zero_iff {c : Config} (v : Codeword c.W) :
    syndrome c v = 0 ↔ ∀ r : Fin c.R, parity (v &&& c.H.get r) = false := by
  rw [eq_comm, eq_syndrome]
  simp

/-- Settles O8, from the bits of a packed syndrome and the parity of a word counted bit by bit. -/
theorem syndromeBitsAreRowParities : Obligations.SyndromeBitsAreRowParities := by
  intro c v r
  refine ⟨syndrome_getLsbD v r, parity_eq_true_iff _, fun hzero => ?_, fun q hrows => ?_, syndrome_eq_zero_iff v⟩
  · simp [hzero]
  · simp [hrows]

/-- Settles O30: an edge without reset, start and pulse leaves an idle lane as it is (`laneAfter_hold`). -/
theorem idleLanesHold : Obligations.IdleLanesHold := by
  refine ⟨decode_lcw_ok false false false .vidle, fun s => exec_eq .vIdle s, fun s hrst hstart hpulse => ?_⟩
  refine ⟨_, step_eq s, fun i hidle => ?_⟩
  rw [regsAfter_lanes, hrst, hstart, laneAfter_hold s.cycle hpulse hidle]

end Sys2Proof.Machine
end

section
/-!
SUPPORT. The proofs about the orchestrator's operations (41_orchestrator.md): what a quiet edge keeps, the only way into
IDLE, and the operations IDLE, GEN and DISPA.
-/

namespace Sys2Proof.Machine

open Sys2Proof

section QuietEdge

variable {c : Config} (cycle : Nat) (x : Codeword c.W) {r : Regs c}

/-- With no pulse pending and every lane idle, an edge with neither rst nor start writes no lane (`laneAfter_hold`). -/
theorem regsAfter_lanes_hold (hpulse : r.vstart = false) (hidle : ∀ i, (r.lanes.get i).vstage = .vidle) :
    (regsAfter cycle false false x r).lanes = r.lanes := by
  ext i
  rw [regsAfter_lanes, laneAfter_hold cycle hpulse (hidle i)]

/-- An edge whose orchestrator's operation and whose lanes write nothing leaves every register. -/
theorem regsAfter_eq_self {rst start : Bool} (horch : orchAfter cycle rst start x r = r)
    (hlanes : (regsAfter cycle rst start x r).lanes = r.lanes) : regsAfter cycle rst start x r = r :=
  calc regsAfter cycle rst start x r
      = { orchAfter cycle rst start x r with lanes := (regsAfter cycle rst start x r).lanes } := rfl
    _ = r := by rw [horch, hlanes]

/-- In IDLE the orchestrator waits (41_orchestrator.md R152). -/
theorem orchAfter_idle (hstage : r.stage = .idle) : orchAfter cycle false false x r = r := by
  rw [orchAfter_run, hstage, stageOp, effect]

end QuietEdge

/-- No operation but RESET leads to IDLE (41_orchestrator.md R152). -/
theorem rst_of_orchAfter_stage_idle {c : Config} {cycle : Nat} {rst start : Bool} {x : Codeword c.W} {r : Regs c}
    (hafter : (orchAfter cycle rst start x r).stage = .idle) (hbefore : r.stage ≠ .idle) : rst = true := by
  by_contra hrst
  rw [Bool.not_eq_true] at hrst
  subst hrst
  cases start with
  | true => simp at hafter
  | false =>
    rw [orchAfter_run] at hafter
    cases hstage : r.stage with
    | idle => exact hbefore hstage
    | await => rcases await_stage cycle r with h | h <;> simp [hstage, stageOp, effect, h] at hafter
    | gen | flip | dispa | dispr | term | reserved7 => simp [hstage, stageOp, effect] at hafter

section Outputs

variable {c : Config} (r : Regs c)

@[simp] theorem Regs.reset_outputs : r.reset.outputs = noResult c.D := rfl
@[simp] theorem Regs.gen_outputs : r.gen.outputs = r.outputs := rfl
@[simp] theorem Regs.dispa_outputs : r.dispa.outputs = r.outputs := rfl

/-- What the host sees after an edge is what the orchestrator's operation left. -/
@[simp] theorem regsAfter_outputs (cycle : Nat) (rst start : Bool) (x : Codeword c.W) :
    (regsAfter cycle rst start x r).outputs = (orchAfter cycle rst start x r).outputs := rfl

/-- GEN does not write slot W (41_orchestrator.md R153). -/
@[simp] theorem Regs.gen_received : r.gen.received = r.received := by simp [Regs.received]

end Outputs

/-- Settles O17: a quiet edge in IDLE writes neither the orchestrator's registers nor a lane's, and of the operations
only RESET leads to IDLE. -/
theorem idleWaitsForStart : Obligations.IdleWaitsForStart := by
  refine ⟨decode_ocw_ok false false .idle, fun s => exec_eq .idle s, ?_, ?_⟩
  · intro s hrst hstart hstage hpulse hidle
    have horch := orchAfter_idle s.cycle s.dataInput hstage
    have hlanes := regsAfter_lanes_hold s.cycle s.dataInput hpulse hidle
    rw [step_eq, hrst, hstart, regsAfter_eq_self s.cycle s.dataInput horch hlanes]
  · intro s r hstep
    rw [step_inv hstep]
    refine ⟨rst_of_orchAfter_stage_idle, fun hrst => ?_⟩
    simp [hrst]

/-- Settles O18: slot by slot from what GEN writes (`Regs.gen_hyp`), the rest from its frame. -/
theorem genCopiesTheReceivedWord : Obligations.GenCopiesTheReceivedWord := by
  refine ⟨decode_ocw_ok false false .gen, fun s => ⟨s.regs.gen, exec_eq .gen s, fun i hi => ?_, s.regs.gen_received, ?_⟩⟩
  · rw [Regs.gen_hyp, if_pos hi]
  · simp

/-- Settles O20: the edge reads the pulse as it was before DISPA raised it, so idle lanes stay as they are
(`regsAfter_lanes_hold`). -/
theorem dispaAssertsThePulse : Obligations.DispaAssertsThePulse := by
  refine ⟨decode_ocw_ok false false .dispa, fun s => ⟨s.regs.dispa, exec_eq .dispa s, by simp⟩, ?_⟩
  intro s hrst hstart hstage hpulse hidle
  refine ⟨_, step_eq s, ?_, ?_⟩
  · simp [hrst, hstart, hstage, stageOp, effect]
  · rw [hrst, hstart, regsAfter_lanes_hold _ _ hpulse hidle]

end Sys2Proof.Machine
end

section
/-!
SUPPORT. The proofs about arbitration (42_arbitration.md): the allDone gate AWAIT waits behind, and TERM.
-/

namespace Sys2Proof.Machine

open Sys2Proof

section Gate

variable {c : Config} {r : Regs c}

/-- AWAIT publishes no winner before the gate opens (42_arbitration.md R182). -/
theorem arbitrate_eq_none_of_not_allDone (h : allDone r = false) : arbitrate r = none := by simp [arbitrate, h]

/-- Cleared lanes read as zero: the gate alone keeps them from being published (42_arbitration.md R180). -/
theorem zero_of_cleared {k : Fin (c.W + 1)} (h : (r.lanes.get k).Cleared) : zero r k = true := by
  obtain ⟨-, -, hsyn⟩ := h
  exact (zero_iff r k).2 hsyn

/-- Cleared lanes do not pass the gate (42_arbitration.md R180). -/
theorem not_allDone_of_cleared (h : ∀ k, (r.lanes.get k).Cleared) : allDone r = false := by
  rw [Bool.eq_false_iff, ne_eq, allDone_iff]
  intro hdone
  obtain ⟨-, hundone, -⟩ := h 0
  simp [hdone 0] at hundone

/-- V_ABORT, V_RESET and RESET clear every lane (40_parity_validator.md R127, 70_reset_and_hazards.md R240). -/
theorem effect_clears_lanes (cycle : Nat) (x : Codeword c.W) (r : Regs c) {i : Instr}
    (hi : i = .vAbort ∨ i = .vReset ∨ i = .reset) (k : Fin (c.W + 1)) :
    ((effect cycle x r i).lanes.get k).Cleared := by
  rcases hi with rfl | rfl | rfl <;> simp [effect, Lane.Cleared]

end Gate

/-- Settles O22: behind the closed gate AWAIT finds no winner, and an operation that clears every lane closes it. -/
theorem awaitArbitratesOnlyWhenAllLanesAreDone : Obligations.AwaitArbitratesOnlyWhenAllLanesAreDone := by
  intro s
  refine ⟨allDone_iff s.regs, zero_iff s.regs, fun hgate => ?_, fun i hi => ?_⟩
  · exact ⟨_, exec_eq .await s, await_keeps_result s.cycle s.regs (arbitrate_eq_none_of_not_allDone hgate)⟩
  · have hcleared := effect_clears_lanes s.cycle s.dataInput s.regs hi
    refine ⟨_, exec_eq i s, fun k => ?_, not_allDone_of_cleared hcleared⟩
    obtain ⟨-, hundone, hsyn⟩ := hcleared k
    exact ⟨hsyn, hundone, zero_of_cleared (hcleared k)⟩

section Term

variable {c : Config} {r : Regs c}

/-- In TERM the orchestrator holds the result (42_arbitration.md R184). -/
theorem orchAfter_term (cycle : Nat) (x : Codeword c.W) (hstage : r.stage = .term) :
    orchAfter cycle false false x r = r := by
  rw [orchAfter_run, hstage, stageOp, effect]

/-- Every safe state in TERM has no pulse pending and idle lanes, so that a quiet edge writes nothing. -/
theorem DecodeInv.quiet_of_term (hinv : DecodeInv r) (hstage : r.stage = .term) :
    r.vstart = false ∧ ∀ i, (r.lanes.get i).vstage = .vidle := by
  obtain ⟨hfinished, -⟩ := hinv.ended hstage
  refine ⟨?_, fun i => (hfinished i).1⟩
  rw [hinv.pulse, hstage]
  rfl

end Term

/-- Settles O25: a quiet edge in TERM writes neither the orchestrator's registers nor a lane's, and without rst and start
the stage stays TERM. -/
theorem termHoldsTheResult : Obligations.TermHoldsTheResult := by
  refine ⟨decode_ocw_ok false false .term, fun s => exec_eq .term s, ?_, fun _ _ => DecodeInv.quiet_of_term, ?_⟩
  · intro s hrst hstart hstage hpulse hidle
    have horch := orchAfter_term s.cycle s.dataInput hstage
    have hlanes := regsAfter_lanes_hold s.cycle s.dataInput hpulse hidle
    rw [step_eq, hrst, hstart, regsAfter_eq_self s.cycle s.dataInput horch hlanes]
  · intro s r hstep hstage hleft
    by_contra hquiet
    simp only [not_or, Bool.not_eq_true] at hquiet
    obtain ⟨hrst, hstart⟩ := hquiet
    rw [step_inv hstep, hrst, hstart, regsAfter_stage, orchAfter_term _ _ hstage] at hleft
    exact hleft hstage

end Sys2Proof.Machine
end

section
/-!
SUPPORT. The proofs over GF(2) (00_scope.md R10, 42_arbitration.md R188, R189): the syndrome is linear, so that the valid
hypotheses can be read off the columns of the matrix; which bits the candidates differ in; the scan for the highest one.
-/

namespace Sys2Proof.Machine

open Sys2Proof

section Parity

variable {w : Nat}

/-- Bit `k` of the word whose only bit is bit `j`. -/
theorem one_shiftLeft_getLsbD {j : Nat} (hj : j < w) (k : Nat) :
    (1#w <<< j).getLsbD k = decide (k = j) := by
  rw [← BitVec.twoPow_eq, BitVec.getLsbD_twoPow]
  simp [hj, eq_comm]

/-- Parity is linear (00_scope.md R10). -/
theorem parity_xor (a b : BitVec w) : parity (a ^^^ b) = (parity a ^^ parity b) := xorBits_xor a b w

/-- Of a masked single bit, the lowest `k` bits hold the mask's bit once `k` is past it. -/
theorem xorBits_one_shiftLeft_and {j : Nat} (hj : j < w) (v : BitVec w) (k : Nat) :
    xorBits ((1#w <<< j) &&& v) k = (decide (j < k) && v.getLsbD j) := by
  induction k with
  | zero => simp [xorBits]
  | succ k ih =>
    rw [xorBits, ih, BitVec.getLsbD_and, one_shiftLeft_getLsbD hj]
    rcases Nat.lt_trichotomy j k with hlt | rfl | hgt
    · simp [hlt, Nat.lt_succ_of_lt hlt, (Nat.ne_of_lt hlt).symm]
    · simp
    · simp [Nat.not_lt_of_gt hgt, Nat.ne_of_lt hgt, show ¬ j < k + 1 by omega]

/-- The parity of a masked single bit is the mask's bit. -/
theorem parity_one_shiftLeft_and {j : Nat} (hj : j < w) (v : BitVec w) :
    parity ((1#w <<< j) &&& v) = v.getLsbD j := by
  rw [parity, xorBits_one_shiftLeft_and hj]
  simp [hj]

end Parity

section Syndrome

variable {c : Config}

/-- The syndrome is linear (42_arbitration.md R188). -/
theorem syndrome_xor (a b : Codeword c.W) : syndrome c (a ^^^ b) = syndrome c a ^^^ syndrome c b := by
  symm
  rw [eq_syndrome]
  intro r
  have hmask : (a ^^^ b) &&& c.H.get r = (a &&& c.H.get r) ^^^ (b &&& c.H.get r) := by
    ext k
    simp [Bool.and_xor_distrib_right]
  rw [BitVec.getLsbD_xor, syndrome_getLsbD, syndrome_getLsbD, hmask, parity_xor]

/-- Inverting bit `j` adds column `j` (42_arbitration.md R188). -/
theorem syndrome_flip (a : Codeword c.W) (j : Nat) : syndrome c (flip a j) = syndrome c a ^^^ col c j :=
  syndrome_xor a _

/-- Row `r` of column `j` is bit `j` of matrix row `r` (42_arbitration.md R188). -/
theorem col_getLsbD {j : Nat} (hj : j < c.W) (r : Fin c.R) :
    (col c j).getLsbD (c.R - 1 - r.val) = (c.H.get r).getLsbD j := by
  rw [col, syndrome_getLsbD, parity_one_shiftLeft_and hj]

end Syndrome

/-- Settles O9: parity is linear row by row, and a single bit's row parity is the row's bit. -/
theorem syndromeIsLinear : Obligations.SyndromeIsLinear :=
  fun _ a b => ⟨syndrome_xor a b, syndrome_flip a, fun _ r hj => col_getLsbD hj r⟩

section Hypotheses

variable {c : Config} {x : Codeword c.W} {i : Fin (c.W + 1)}

theorem hypothesis_of_lt (h : i.val < c.W) : hypothesis x i = flip x i.val := if_pos h

@[simp] theorem hypothesis_last : hypothesis x (Fin.last c.W) = x := if_neg (Nat.lt_irrefl _)

/-- Every index is a single-flip candidate's or the received word's (41_orchestrator.md R157). -/
theorem lt_or_eq_last (i : Fin (c.W + 1)) : i.val < c.W ∨ i = Fin.last c.W := by
  rcases Nat.lt_or_ge i.val c.W with h | h
  · exact .inl h
  · exact .inr (Fin.ext (Nat.le_antisymm (Nat.le_of_lt_succ i.isLt) h))

/-- The received word as hypothesis is valid exactly if it is a codeword (42_arbitration.md R188). -/
theorem valid_last_iff : Valid x (Fin.last c.W) ↔ syndrome c x = 0 := by simp [Valid]

/-- A single-flip candidate is valid exactly if its column is the received word's syndrome (42_arbitration.md R188). -/
theorem valid_iff_col_eq (h : i.val < c.W) : Valid x i ↔ col c i.val = syndrome c x := by
  simp [Valid, h, Nat.ne_of_lt h]

/-- A hypothesis is valid exactly if its syndrome is zero (42_arbitration.md R188). -/
theorem valid_iff_syndrome_eq_zero : Valid x i ↔ syndrome c (hypothesis x i) = 0 := by
  rcases lt_or_eq_last i with h | rfl
  · rw [valid_iff_col_eq h, hypothesis_of_lt h, syndrome_flip, eq_comm]
    exact BitVec.xor_eq_zero_iff.symm
  · rw [valid_last_iff, hypothesis_last]

end Hypotheses

/-- Settles O10: a flip adds its column, which cancels exactly the equal syndrome. -/
theorem validMeansZeroSyndrome : Obligations.ValidMeansZeroSyndrome := fun _ _ _ => valid_iff_syndrome_eq_zero

/-- Settles O11: two valid hypotheses are read off equal columns, or off a column that would be zero. -/
theorem goodColumnsLeaveOneHypothesis : Obligations.GoodColumnsLeaveOneHypothesis := by
  rintro c ⟨hnonzero, hdistinct⟩ x i j hi hj
  rcases lt_or_eq_last i with hlti | rfl <;> rcases lt_or_eq_last j with hltj | rfl
  · rw [valid_iff_col_eq hlti] at hi
    rw [valid_iff_col_eq hltj] at hj
    exact Fin.ext (hdistinct _ _ hlti hltj (hi.trans hj.symm))
  · rw [valid_iff_col_eq hlti, valid_last_iff.1 hj] at hi
    exact absurd hi (hnonzero _ hlti)
  · rw [valid_iff_col_eq hltj, valid_last_iff.1 hi] at hj
    exact absurd hj (hnonzero _ hltj)
  · rfl

section PopulationCount

variable {w : Nat}

/-- The population count is the size of the set of 1 bits (00_scope.md R10). -/
theorem popcount_eq_card (v : BitVec w) : popcount v = ((Finset.range w).filter fun k => v.getLsbD k = true).card := by
  change _ = ((List.range w).filter fun k => decide (v.getLsbD k = true)).length
  simp [popcount]

theorem popcount_one_shiftLeft {i : Nat} (hi : i < w) : popcount (1#w <<< i) = 1 := by
  have hbits : ((Finset.range w).filter fun k => (1#w <<< i).getLsbD k = true) = {i} := by
    ext k
    simp only [one_shiftLeft_getLsbD hi, Finset.mem_filter, Finset.mem_range, Finset.mem_singleton, decide_eq_true_eq]
    omega
  rw [popcount_eq_card, hbits, Finset.card_singleton]

theorem popcount_two_bits {i j : Nat} (hi : i < w) (hj : j < w) (hne : i ≠ j) :
    popcount ((1#w <<< i) ^^^ (1#w <<< j)) = 2 := by
  have hbits : ((Finset.range w).filter fun k => ((1#w <<< i) ^^^ (1#w <<< j)).getLsbD k = true) = {i, j} := by
    ext k
    simp only [BitVec.getLsbD_xor, one_shiftLeft_getLsbD hi, one_shiftLeft_getLsbD hj, Finset.mem_filter,
      Finset.mem_range, Finset.mem_insert, Finset.mem_singleton, bne_iff_ne, ne_eq, decide_eq_decide]
    omega
  rw [popcount_eq_card, hbits, Finset.card_pair hne]

end PopulationCount

/-- Settles O12: each candidate is the received word plus its own bit, and the received word cancels. -/
theorem candidatesDifferInTheirOwnBits : Obligations.CandidatesDifferInTheirOwnBits := by
  intro c x i hi
  have hown : hypothesis x i ^^^ x = 1#c.W <<< i.val := by
    rw [hypothesis_of_lt hi, flip, BitVec.xor_comm x, BitVec.xor_assoc, BitVec.xor_self, BitVec.xor_zero]
  refine ⟨hown, by rw [hown, popcount_one_shiftLeft hi], fun j hj hne => ?_⟩
  have hpair : hypothesis x i ^^^ hypothesis x j = (1#c.W <<< i.val) ^^^ (1#c.W <<< j.val) := by
    rw [← hown, hypothesis_of_lt hj, flip, BitVec.xor_assoc]
  refine ⟨hpair, ?_⟩
  rw [hpair, popcount_two_bits hi hj fun h => hne (Fin.ext h)]

/-- Settles O14: the scan runs over all indices, and a lane passes it exactly if its syndrome is zero. -/
theorem priorityScanFindsTheHighestIndex : Obligations.PriorityScanFindsTheHighestIndex := by
  intro c r
  refine ⟨fun w => ?_, ?_⟩
  · simp only [winner, scan_eq_some, w.isLt, true_and, zero_iff, zero_eq_false, Fin.is_lt, true_imp_iff]
  · simp only [winner, scan_eq_none, zero_eq_false, Fin.is_lt, true_imp_iff]

/-- A word has a highest valid hypothesis, or is uncorrectable (42_arbitration.md R181, 60_exceptions.md R211). -/
theorem exists_isWinner_or_uncorrectable {c : Config} (x : Codeword c.W) :
    (∃ w : Fin (c.W + 1), IsWinner x w) ∨ Uncorrectable x := by
  classical
  cases hscan : scan (fun i : Fin (c.W + 1) => decide (Valid x i)) (c.W + 1) (Nat.le_refl _) with
  | some w =>
    obtain ⟨-, hvalid, hhigher⟩ := (scan_eq_some _ _ _ w).1 hscan
    exact .inl ⟨w, of_decide_eq_true hvalid, fun j hj => of_decide_eq_false (hhigher j j.isLt hj)⟩
  | none => exact .inr fun i => of_decide_eq_false ((scan_eq_none _ _ _).1 hscan i i.isLt)

/-- Settles O13: each slice is a run of bits of the hypothesis. -/
theorem sliceTakesTheChosenBits : Obligations.SliceTakesTheChosenBits := by
  intro c v j hj
  refine ⟨fun hhigh => ?_, fun hlow => ?_, fun hall => ?_⟩
  · simp [slice, hhigh, hj]
  · simp [slice, hlow, hj]
  · cases hslice : c.dataSlice <;> simp [slice, hslice, hall, Nat.mod_eq_of_lt v.isLt]

end Sys2Proof.Machine
end

section
/-!
SUPPORT. The decode invariant (41_orchestrator.md section 3, 42_arbitration.md section 4): what each stage needs for it, what
it says of arbitration, and that every edge keeps it.
-/

namespace Sys2Proof.Machine

open Sys2Proof

section Schedule

variable {c : Config} {v : Codeword c.W} {t : Nat}

/-- A lane `t` edges after its V_MASK edge: it reduces until bit W-1 is folded and then holds its syndrome
(40_parity_validator.md R128, R129). -/
def Lane.OnSchedule (candidate : Codeword c.W) (t : Nat) (l : Lane c) : Prop :=
  (t < c.W - 1 → l.Reducing candidate t) ∧ (c.W - 1 ≤ t → l.Finished candidate)

/-- A V_MASK edge puts a lane on schedule, whatever it held. -/
theorem Lane.mask_onSchedule (v : Codeword c.W) (l : Lane c) : (l.mask v).OnSchedule v 0 := by
  refine ⟨fun ht => l.mask_reducing (by omega) v, fun ht => l.mask_finished ?_ v⟩
  have := c.W_pos
  omega

/-- Every edge with neither rst nor start keeps a lane that sees no pulse on schedule. -/
theorem laneAfter_onSchedule (cycle : Nat) {r : Regs c} {i : Fin (c.W + 1)} (hpulse : r.vstart = false)
    (h : (r.lanes.get i).OnSchedule v t) : (laneAfter cycle false false r i).OnSchedule v (t + 1) := by
  obtain ⟨hreducing, hfinished⟩ := h
  by_cases ht : t < c.W - 1
  · have hred := hreducing ht
    rw [laneAfter_reduce cycle hpulse hred.1]
    exact ⟨fun hlt => Lane.reduce_reducing hred hlt _ _, fun hge => Lane.reduce_finished hred (by omega) _ _⟩
  · have hfin := hfinished (by omega)
    rw [laneAfter_hold cycle hpulse hfin.1]
    exact ⟨fun hlt => absurd hlt (by omega), fun _ => hfin⟩

/-- A lane on schedule is done exactly once all bits are folded. -/
theorem Lane.OnSchedule.vdone_iff {l : Lane c} (h : l.OnSchedule v t) : l.vdone = true ↔ c.W - 1 ≤ t := by
  obtain ⟨hreducing, hfinished⟩ := h
  by_cases ht : t < c.W - 1
  · obtain ⟨-, hundone, -⟩ := hreducing ht
    simp only [hundone, Bool.false_eq_true, false_iff]
    omega
  · obtain ⟨-, hdone, -⟩ := hfinished (by omega)
    simp only [hdone, true_iff]
    omega

/-- Stage AWAIT by the lanes' schedule (42_arbitration.md R186). -/
theorem awaitInv_iff {r : Regs c} :
    AwaitInv r ↔ (∀ i, (r.lanes.get i).OnSchedule (r.hyp.get i) r.tmo.toNat) ∧
      (c.W - 1 < r.tmo.toNat → Uncorrectable r.received) :=
  ⟨fun ⟨hreducing, hfinished, hnone⟩ => ⟨fun i => ⟨fun h => hreducing h i, fun h => hfinished h i⟩, hnone⟩,
    fun ⟨hlanes, hnone⟩ => ⟨fun h i => (hlanes i).1 h, fun h i => (hlanes i).2 h, hnone⟩⟩

end Schedule

section Stages

variable {c : Config} {r : Regs c}

theorem outputs_eq_noResult_iff : r.outputs = noResult c.D ↔ r.done = false ∧ r.success = false ∧ r.dout = 0 := by
  simp [Regs.outputs, noResult]

theorem outputs_eq_corrected_iff {d : BitVec c.D} :
    r.outputs = corrected d ↔ r.done = true ∧ r.success = true ∧ r.dout = d := by
  simp [Regs.outputs, corrected]

theorem outputs_eq_uncorrectable_iff :
    r.outputs = uncorrectable c.D ↔ r.done = true ∧ r.success = false ∧ r.dout = 0 := by
  simp [Regs.outputs, uncorrectable]

/-- No lane has started and nothing was counted or published since the last start or reset. -/
def Undispatched (r : Regs c) : Prop := r.outputs = noResult c.D ∧ r.tmo = 0 ∧ ∀ i, (r.lanes.get i).Cleared

/-- What the invariant needs before the lanes are dispatched. -/
theorem Undispatched.decodeInv (h : Undispatched r)
    (hstage : r.stage ≠ .await ∧ r.stage ≠ .term ∧ r.stage ≠ .reserved7) (hpulse : PulseInv r)
    (hcopied : r.stage = .flip → ∀ i, r.hyp.get i = r.received)
    (hcandidates : r.stage = .dispa ∨ r.stage = .dispr → Candidates r) : DecodeInv r := by
  obtain ⟨houtputs, htmo, hcleared⟩ := h
  obtain ⟨hdone, hsuccess, hdout⟩ := outputs_eq_noResult_iff.1 houtputs
  obtain ⟨hawait, hterm, hlegal⟩ := hstage
  have hzero : r.tmo.toNat = 0 := by simp [htmo]
  exact
    { pulse := hpulse
      legal := hlegal
      outcome := ⟨by simp [hdone, hterm], by simp [hsuccess], fun _ => hdout⟩
      counter := ⟨by omega, fun _ => by omega⟩
      cleared := fun _ _ => ⟨htmo, hcleared⟩
      copied := hcopied
      candidates := fun h => hcandidates (by simpa [hawait, hterm] using h)
      awaiting := fun h => absurd h hawait
      ended := fun h => absurd h hterm }

/-- What the invariant needs in AWAIT. -/
theorem decodeInv_of_await (hstage : r.stage = .await) (hpulse : r.vstart = false)
    (houtputs : r.outputs = noResult c.D) (htmo : r.tmo.toNat ≤ c.tmoBound + 1) (hcandidates : Candidates r)
    (hawaiting : AwaitInv r) : DecodeInv r := by
  obtain ⟨hdone, hsuccess, hdout⟩ := outputs_eq_noResult_iff.1 houtputs
  exact
    { pulse := by simp [PulseInv, hpulse, hstage]
      legal := by simp [StageLegal, hstage]
      outcome := ⟨by simp [hdone, hstage], by simp [hsuccess], fun _ => hdout⟩
      counter := ⟨by omega, fun _ => htmo⟩
      cleared := fun h => absurd hstage h
      copied := by simp [hstage]
      candidates := fun _ => hcandidates
      awaiting := fun _ => hawaiting
      ended := by simp [hstage] }

/-- What the invariant needs in TERM. -/
theorem decodeInv_of_term (hstage : r.stage = .term) (hpulse : r.vstart = false) (hcandidates : Candidates r)
    (hended : TermInv r) : DecodeInv r := by
  have hcore : (r.done = true ∧ (r.success = false → r.dout = 0)) ∧ r.tmo.toNat ≤ c.tmoBound + 2 := by
    obtain ⟨-, ⟨w, -, houtputs, htmo⟩ | ⟨-, houtputs, htmo⟩⟩ := hended
    · obtain ⟨hdone, hsuccess, -⟩ := outputs_eq_corrected_iff.1 houtputs
      have := c.tmo_ok
      exact ⟨⟨hdone, by simp [hsuccess]⟩, by omega⟩
    · obtain ⟨hdone, -, hdout⟩ := outputs_eq_uncorrectable_iff.1 houtputs
      exact ⟨⟨hdone, fun _ => hdout⟩, by omega⟩
  obtain ⟨⟨hdone, hdout⟩, htmo⟩ := hcore
  exact
    { pulse := by simp [PulseInv, hpulse, hstage]
      legal := by simp [StageLegal, hstage]
      outcome := ⟨by simp [hdone, hstage], fun _ => hdone, hdout⟩
      counter := ⟨htmo, fun h => absurd hstage h⟩
      cleared := fun _ h => absurd hstage h
      copied := by simp [hstage]
      candidates := fun _ => hcandidates
      awaiting := by simp [hstage]
      ended := fun _ => hended }

end Stages

section Readings

variable {c : Config} {r : Regs c} (hinv : DecodeInv r)

include hinv

/-- Outside TERM no result is available (60_exceptions.md R211). -/
theorem DecodeInv.outputs_of_ne_term (hstage : r.stage ≠ .term) : r.outputs = noResult c.D := by
  obtain ⟨hdone, hsuccess, hdout⟩ := hinv.outcome
  have hnot : r.done = false := by simp [hdone, hstage]
  have hfail : r.success = false := by
    by_contra h
    simp [hsuccess (by simpa using h)] at hnot
  exact outputs_eq_noResult_iff.2 ⟨hnot, hfail, hdout hfail⟩

theorem DecodeInv.undispatched (hawait : r.stage ≠ .await) (hterm : r.stage ≠ .term) : Undispatched r :=
  ⟨hinv.outputs_of_ne_term hterm, hinv.cleared hawait hterm⟩

/-- Outside DISPR no pulse is pending (41_orchestrator.md R158). -/
theorem DecodeInv.vstart_of_ne_dispr (hstage : r.stage ≠ .dispr) : r.vstart = false := by
  rw [hinv.pulse, decide_eq_false hstage]

/-- In AWAIT the slots hold the candidate set (41_orchestrator.md R157). -/
theorem DecodeInv.candidates_of_await (hstage : r.stage = .await) : Candidates r :=
  hinv.candidates (.inr (.inr (.inl hstage)))

/-- In AWAIT a winner is published exactly if the lanes have had their time and it is the highest valid hypothesis
(42_arbitration.md R181, R182, R188). -/
theorem DecodeInv.arbitrate_eq_some_iff (hstage : r.stage = .await) (w : Fin (c.W + 1)) :
    arbitrate r = some w ↔ c.W - 1 ≤ r.tmo.toNat ∧ IsWinner r.received w := by
  obtain ⟨hlanes, -⟩ := awaitInv_iff.1 (hinv.awaiting hstage)
  have hcandidates := hinv.candidates_of_await hstage
  rw [arbitrate_eq_some]
  simp only [(hlanes _).vdone_iff, forall_const]
  refine and_congr_right fun ht => ?_
  have hvalid : ∀ i, (r.lanes.get i).syn = 0 ↔ Valid r.received i := fun i => by
    obtain ⟨-, -, hsyn⟩ := (hlanes i).2 ht
    rw [hsyn, hcandidates i, valid_iff_syndrome_eq_zero]
  simp only [IsWinner, hvalid, ne_eq]

end Readings

section QuietEdges

variable {c : Config} (cycle : Nat) (x : Codeword c.W) {r : Regs c}

/-- No stage writes slot W (41_orchestrator.md R153, R154). -/
@[simp] theorem regsAfter_quiet_received : (regsAfter cycle false false x r).received = r.received := by
  cases hstage : r.stage <;> simp [Regs.received, hstage, stageOp, effect]

/-- In DISPR the orchestrator releases the pulse (41_orchestrator.md R156). -/
theorem orchAfter_dispr (hstage : r.stage = .dispr) : orchAfter cycle false false x r = r.dispr := by
  rw [orchAfter_run, hstage, stageOp, effect]

/-- In AWAIT the orchestrator waits, arbitrates or times out (42_arbitration.md R182). -/
theorem orchAfter_await (hstage : r.stage = .await) : orchAfter cycle false false x r = r.await cycle := by
  rw [orchAfter_run, hstage, stageOp, effect]

/-- With no pulse pending and every lane idle, the edge is the stage's operation alone. -/
theorem regsAfter_eq_effect (hpulse : r.vstart = false) (hidle : ∀ i, (r.lanes.get i).vstage = .vidle)
    (hframe : (effect cycle x r (stageOp r.stage)).lanes = r.lanes) :
    regsAfter cycle false false x r = effect cycle x r (stageOp r.stage) :=
  calc regsAfter cycle false false x r
      = { effect cycle x r (stageOp r.stage) with lanes := (regsAfter cycle false false x r).lanes } := rfl
    _ = effect cycle x r (stageOp r.stage) := by rw [regsAfter_lanes_hold cycle x hpulse hidle, ← hframe]

/-- Before the dispatch pulse the edge is the stage's operation alone. -/
theorem DecodeInv.regsAfter_eq_effect (hinv : DecodeInv r) (hawait : r.stage ≠ .await) (hterm : r.stage ≠ .term)
    (hdispr : r.stage ≠ .dispr) (hframe : (effect cycle x r (stageOp r.stage)).lanes = r.lanes) :
    regsAfter cycle false false x r = effect cycle x r (stageOp r.stage) :=
  Machine.regsAfter_eq_effect cycle x (hinv.vstart_of_ne_dispr hdispr) (fun i => ((hinv.cleared hawait hterm).2 i).1)
    hframe

/-- GEN's edge keeps the invariant: every slot holds the received word. -/
theorem DecodeInv.edge_gen (hinv : DecodeInv r) (hstage : r.stage = .gen) :
    DecodeInv (regsAfter cycle false false x r) := by
  have hedge : regsAfter cycle false false x r = r.gen := by
    rw [hinv.regsAfter_eq_effect cycle x] <;> simp [hstage, stageOp, effect]
  have hpulse := hinv.vstart_of_ne_dispr (by simp [hstage])
  rw [hedge]
  refine Undispatched.decodeInv (hinv.undispatched (by simp [hstage]) (by simp [hstage])) (by simp)
    (by simp [PulseInv, hpulse]) (fun _ i => ?_) (by simp)
  rcases lt_or_eq_last i with h | rfl
  · simp [h]
  · rfl

/-- FLIP's edge keeps the invariant: the slots hold the candidate set (41_orchestrator.md R157). -/
theorem DecodeInv.edge_flip (hinv : DecodeInv r) (hstage : r.stage = .flip) :
    DecodeInv (regsAfter cycle false false x r) := by
  have hedge : regsAfter cycle false false x r = r.flip := by
    rw [hinv.regsAfter_eq_effect cycle x] <;> simp [hstage, stageOp, effect]
  have hpulse := hinv.vstart_of_ne_dispr (by simp [hstage])
  have hreceived : r.flip.received = r.received := by simp [Regs.received]
  rw [hedge]
  refine Undispatched.decodeInv (hinv.undispatched (by simp [hstage]) (by simp [hstage])) (by simp)
    (by simp [PulseInv, hpulse]) (by simp) (fun _ i => ?_)
  rw [Regs.flip_hyp, hreceived, hinv.copied hstage, hypothesis]

/-- DISPA's edge keeps the invariant: it raises the pulse that DISPR has. -/
theorem DecodeInv.edge_dispa (hinv : DecodeInv r) (hstage : r.stage = .dispa) :
    DecodeInv (regsAfter cycle false false x r) := by
  have hedge : regsAfter cycle false false x r = r.dispa := by
    rw [hinv.regsAfter_eq_effect cycle x] <;> simp [hstage, stageOp, effect]
  rw [hedge]
  exact Undispatched.decodeInv (hinv.undispatched (by simp [hstage]) (by simp [hstage])) (by simp)
    (by simp [PulseInv]) (by simp) fun _ => hinv.candidates (.inl hstage)

/-- DISPR's edge keeps the invariant: every lane is masked with its candidate. -/
theorem DecodeInv.edge_dispr (hinv : DecodeInv r) (hstage : r.stage = .dispr) :
    DecodeInv (regsAfter cycle false false x r) := by
  obtain ⟨houtputs, htmo, -⟩ := hinv.undispatched (by simp [hstage]) (by simp [hstage])
  have hpulse : r.vstart = true := by rw [hinv.pulse, decide_eq_true hstage]
  have hedge := orchAfter_dispr cycle x hstage
  have hzero : (regsAfter cycle false false x r).tmo.toNat = 0 := by simp [hedge, htmo]
  refine decodeInv_of_await (by simp [hedge]) (by simp [hedge]) ?_ (by omega) ?_ ?_
  · rw [regsAfter_outputs, hedge, ← houtputs]
    rfl
  · intro i
    rw [regsAfter_hyp, hedge, Regs.dispr_hyp, regsAfter_quiet_received]
    exact hinv.candidates (.inr (.inl hstage)) i
  · refine awaitInv_iff.2 ⟨fun i => ?_, fun h => absurd h (by omega)⟩
    rw [hzero, regsAfter_lanes, laneAfter_mask cycle hpulse, regsAfter_hyp, hedge, Regs.dispr_hyp]
    exact Lane.mask_onSchedule _ _

/-- AWAIT's edge keeps the invariant: a winner is the highest valid hypothesis, found at once when the lanes are done;
later edges find none until the counter is past its bound (42_arbitration.md R186, R187). -/
theorem DecodeInv.edge_await (hinv : DecodeInv r) (hstage : r.stage = .await) :
    DecodeInv (regsAfter cycle false false x r) := by
  obtain ⟨hlanes, hnone⟩ := awaitInv_iff.1 (hinv.awaiting hstage)
  have hpulse := hinv.vstart_of_ne_dispr (by simp [hstage])
  have houtputs := hinv.outputs_of_ne_term (by simp [hstage])
  have hbound : r.tmo.toNat ≤ c.tmoBound + 1 := hinv.counter.2 (by simp [hstage])
  have hcandidates := hinv.candidates_of_await hstage
  have hW := c.W_pos
  have htmoOk := c.tmo_ok
  have hedge := orchAfter_await cycle x hstage
  have hpulse' : (regsAfter cycle false false x r).vstart = false := by simp [hedge, hpulse]
  have hhyp' : (regsAfter cycle false false x r).hyp = r.hyp := by simp [hedge]
  have htmo' : (regsAfter cycle false false x r).tmo.toNat = r.tmo.toNat + 1 := by
    rw [regsAfter_tmo, hedge, await_tmo, nextTmo_toNat hbound]
  have hcandidates' : Candidates (regsAfter cycle false false x r) := by
    intro i
    rw [hhyp', regsAfter_quiet_received]
    exact hcandidates i
  have hlanes' : ∀ i, ((regsAfter cycle false false x r).lanes.get i).OnSchedule
      ((regsAfter cycle false false x r).hyp.get i) (r.tmo.toNat + 1) := by
    intro i
    rw [hhyp', regsAfter_lanes]
    exact laneAfter_onSchedule cycle hpulse (hlanes i)
  rcases await_cases cycle r with ⟨w, hsome, e⟩ | ⟨hfail, ht, e⟩ | ⟨hfail, ht, e⟩
  · obtain ⟨hdone, hwinner⟩ := (hinv.arbitrate_eq_some_iff hstage w).1 hsome
    have hfirst : ¬ c.W - 1 < r.tmo.toNat := fun hlate => hnone hlate w hwinner.1
    refine decodeInv_of_term (by simp [hedge, e]) hpulse' hcandidates'
      ⟨fun i => (hlanes' i).2 (by omega), .inl ⟨w, ?_, ?_, by omega⟩⟩
    · rwa [regsAfter_quiet_received]
    · rw [regsAfter_outputs, hedge, e, regsAfter_quiet_received, ← hcandidates w]
      rfl
  · refine decodeInv_of_term (by simp [hedge, e]) hpulse' hcandidates'
      ⟨fun i => (hlanes' i).2 (by omega), .inr ⟨?_, ?_, by omega⟩⟩
    · rw [regsAfter_quiet_received]
      exact hnone (by omega)
    · obtain ⟨-, hsuccess, hdout⟩ := outputs_eq_noResult_iff.1 houtputs
      rw [regsAfter_outputs, hedge, e]
      simp [Regs.outputs, uncorrectable, hsuccess, hdout]
  · refine decodeInv_of_await (by simp [hedge, e]) hpulse' ?_ (by omega) hcandidates'
      (awaitInv_iff.2 ⟨by rwa [htmo'], fun hlate => ?_⟩)
    · rw [regsAfter_outputs, hedge, e, ← houtputs]
      rfl
    · rw [regsAfter_quiet_received]
      refine (exists_isWinner_or_uncorrectable r.received).resolve_left fun ⟨w, hwinner⟩ => ?_
      have hsome := (hinv.arbitrate_eq_some_iff hstage w).2 ⟨by omega, hwinner⟩
      simp [hfail] at hsome

/-- An edge with neither rst nor start keeps the invariant. -/
theorem DecodeInv.edge_quiet (hinv : DecodeInv r) : DecodeInv (regsAfter cycle false false x r) := by
  cases hstage : r.stage with
  | idle =>
    have hedge : regsAfter cycle false false x r = r := by
      rw [hinv.regsAfter_eq_effect cycle x] <;> simp [hstage, stageOp, effect]
    rwa [hedge]
  | gen => exact hinv.edge_gen cycle x hstage
  | flip => exact hinv.edge_flip cycle x hstage
  | dispa => exact hinv.edge_dispa cycle x hstage
  | dispr => exact hinv.edge_dispr cycle x hstage
  | await => exact hinv.edge_await cycle x hstage
  | term =>
    obtain ⟨hpulse, hidle⟩ := hinv.quiet_of_term hstage
    have hedge := regsAfter_eq_self cycle x (orchAfter_term cycle x hstage) (regsAfter_lanes_hold cycle x hpulse hidle)
    rwa [hedge]
  | reserved7 => exact absurd hstage hinv.legal

end QuietEdges

section FreshEdges

variable {c : Config} (cycle : Nat) (start : Bool) (x : Codeword c.W) (r : Regs c)

/-- A reset leaves nothing of a decode (70_reset_and_hazards.md R240). -/
theorem regsAfter_rst_undispatched : Undispatched (regsAfter cycle true start x r) :=
  ⟨rfl, rfl, fun i => by simp [Lane.Cleared]⟩

/-- A start edge leaves nothing of an earlier decode (41_orchestrator.md R151, 40_parity_validator.md R127). -/
theorem regsAfter_start_undispatched : Undispatched (regsAfter cycle false true x r) :=
  ⟨rfl, rfl, fun i => by simp [Lane.Cleared]⟩

/-- A reset brings every state into the invariant. -/
theorem decodeInv_rst : DecodeInv (regsAfter cycle true start x r) :=
  (regsAfter_rst_undispatched cycle start x r).decodeInv (by simp) (by simp [PulseInv]) (by simp) (by simp)

/-- A start edge brings every state into the invariant (70_reset_and_hazards.md R243). -/
theorem decodeInv_start : DecodeInv (regsAfter cycle false true x r) :=
  (regsAfter_start_undispatched cycle x r).decodeInv (by simp) (by simp [PulseInv]) (by simp) (by simp)

variable {r}

/-- Every edge keeps the invariant. -/
theorem DecodeInv.edge (hinv : DecodeInv r) (rst : Bool) : DecodeInv (regsAfter cycle rst start x r) :=
  match rst, start with
  | true, start => decodeInv_rst cycle start x r
  | false, true => decodeInv_start cycle x r
  | false, false => hinv.edge_quiet cycle x

end FreshEdges

/-- Settles O44: by the stage the edge is taken in, or by rst or start alone. -/
theorem everyStepKeepsTheDecodeInvariant : Obligations.EveryStepKeepsTheDecodeInvariant := by
  intro s r hstep hinv
  rw [step_inv hstep]
  exact hinv.edge s.cycle s.start s.dataInput s.rst

/-- Settles O45: a start edge writes or clears all that the invariant constrains in GEN. -/
theorem startEdgeEstablishesTheInvariant : Obligations.StartEdgeEstablishesTheInvariant := by
  intro s r hstep hstart hrst
  rw [step_inv hstep, hrst, hstart]
  exact decodeInv_start _ _ _

/-- The reset state holds nothing of a decode (70_reset_and_hazards.md R240). -/
theorem undispatched_atReset (c : Config) : Undispatched (Regs.atReset c) :=
  ⟨rfl, rfl, fun i => by simp [Regs.atReset, Lane.atReset, Lane.Cleared]⟩

/-- Settles O39: nothing has been dispatched, and in IDLE the invariant asks for no more. -/
theorem resetMeetsTheDecodeInvariant : Obligations.ResetMeetsTheDecodeInvariant := fun c =>
  (undispatched_atReset c).decodeInv (by simp [Regs.atReset]) rfl (by simp [Regs.atReset]) (by simp [Regs.atReset])

end Sys2Proof.Machine
end

section
/-!
SUPPORT. The proofs about whole decodes (42_arbitration.md sections 3 and 4): a property that every edge with neither rst nor
start carries on holds along a decode, so that each statement is about one edge; the lanes' W edges, the contract cycle by
cycle and what follows from it.
-/

namespace Sys2Proof.Machine

open Sys2Proof

section Stimulus

variable {s : State} {x : Codeword s.cfg.W} {p : List (BitVec (s.cfg.W + 2))}

/-- The inputs at an edge are the fields of the word presented (30_encoding.md R99). -/
theorem State.inputs_of_stim {rst start : Bool} (h : s.stim = Sys2Proof.scw rst start x :: p) :
    s.rst = rst ∧ s.start = start ∧ s.dataInput = x := by
  simp [State.rst, State.start, State.dataInput, State.scw_of_stim h]

/-- The edge a presented word gives. -/
theorem step_of_stim {rst start : Bool} (h : s.stim = Sys2Proof.scw rst start x :: p) :
    step s = .next (s.after 1 (regsAfter s.cycle rst start x s.regs)) := by
  obtain ⟨hrst, hstart, hdata⟩ := State.inputs_of_stim h
  rw [step_eq, hrst, hstart, hdata]

theorem run_succ_of_stim {rst start : Bool} (h : s.stim = Sys2Proof.scw rst start x :: p) (k : Nat) :
    run (k + 1) s = run k (s.after 1 (regsAfter s.cycle rst start x s.regs)) := by
  rw [run, step_of_stim h]

variable {ds : List (Codeword s.cfg.W)} {P : Nat → Regs s.cfg → Prop}
  (hstep : ∀ k r cycle x, P k r → P (k + 1) (regsAfter cycle false false x r))

include hstep

/-- What every edge with neither rst nor start carries on, a run of such edges carries on. -/
theorem run_waits (hstim : s.stim = ds.map waitWord ++ p) (h0 : P 0 s.regs) (k : Nat) (hk : k ≤ ds.length) :
    ∃ r : Regs s.cfg, run k s = .next (s.after k r) ∧ P k r := by
  induction k with
  | zero => exact ⟨s.regs, by rw [State.after_zero, run_zero], h0⟩
  | succ k ih =>
    obtain ⟨r, hrun, hr⟩ := ih (by omega)
    have hword : (s.after k r).stim = waitWord ds[k] :: (ds.drop (k + 1)).map waitWord ++ p := by
      rw [State.after_stim, hstim, List.drop_append_of_le_length (by simpa using Nat.le_of_succ_le hk), ← List.map_drop,
        List.drop_eq_getElem_cons (by omega), List.map_cons]
    obtain ⟨hrst, hstart, hdata⟩ := State.inputs_of_stim hword
    exact ⟨_, run_snoc k s r hrun, by rw [hrst, hstart]; exact hstep _ _ _ _ hr⟩

/-- The same from a start edge on. -/
theorem run_decode (hstim : s.stim = startWord x :: (ds.map waitWord ++ p))
    (h0 : P 0 (regsAfter s.cycle false true x s.regs)) (k : Nat) (hk : k ≤ ds.length) :
    ∃ r : Regs s.cfg, run (k + 1) s = .next (s.after (k + 1) r) ∧ P k r := by
  have hrest : (s.after 1 (regsAfter s.cycle false true x s.regs)).stim = ds.map waitWord ++ p := by
    rw [State.after_stim, hstim, List.drop_one, List.tail_cons]
  obtain ⟨r, hrun, hr⟩ := run_waits (s := s.after 1 _) hstep hrest h0 k hk
  exact ⟨r, by rw [run_succ_of_stim hstim, hrun, State.after_after, Nat.add_comm], hr⟩

end Stimulus

section LaneLatency

variable {c : Config}

/-- The lanes `k` edges after an edge that sees the pulse with these slots (40_parity_validator.md R128). -/
def Dispatched (hyp : Bank (Codeword c.W) (c.W + 1)) (k : Nat) (r : Regs c) : Prop :=
  r.hyp = hyp ∧
  match k with
  | 0 => r.stage = .dispr ∧ r.vstart = true
  | t + 1 => (r.stage = .await ∨ r.stage = .term) ∧ r.vstart = false ∧
      ∀ i, (r.lanes.get i).OnSchedule (hyp.get i) t

/-- Once dispatched, neither the orchestrator nor the end of the decode disturbs the lanes. -/
theorem Dispatched.edge {hyp : Bank (Codeword c.W) (c.W + 1)} {k : Nat} {r : Regs c} (h : Dispatched hyp k r)
    (cycle : Nat) (x : Codeword c.W) : Dispatched hyp (k + 1) (regsAfter cycle false false x r) := by
  match k, h with
  | 0, ⟨hhyp, hstage, hpulse⟩ =>
    have hedge := orchAfter_dispr cycle x hstage
    refine ⟨by simp [hedge, hhyp], by simp [hedge], by simp [hedge], fun i => ?_⟩
    rw [regsAfter_lanes, laneAfter_mask cycle hpulse, hhyp]
    exact Lane.mask_onSchedule _ _
  | t + 1, ⟨hhyp, hstage, hpulse, hlanes⟩ =>
    have hlanes' : ∀ i, ((regsAfter cycle false false x r).lanes.get i).OnSchedule (hyp.get i) (t + 1) := fun i => by
      rw [regsAfter_lanes]
      exact laneAfter_onSchedule cycle hpulse (hlanes i)
    rcases hstage with hstage | hstage
    · have hedge := orchAfter_await cycle x hstage
      exact ⟨by simp [hedge, hhyp], by simpa [hedge] using await_stage cycle r, by simp [hedge, hpulse], hlanes'⟩
    · have hedge := orchAfter_term cycle x hstage
      exact ⟨by simp [hedge, hhyp], by simp [hedge, hstage], by simp [hedge, hpulse], hlanes'⟩

end LaneLatency

/-- Settles O46: the edge that sees the pulse puts every lane on schedule, and each later edge keeps it there. -/
theorem lanesFinishAfterExactlyWEdges : Obligations.LanesFinishAfterExactlyWEdges := by
  intro s ds p hstage hpulse hstim hlength k hpos hk
  have hstart : Dispatched s.regs.hyp 0 s.regs := ⟨rfl, hstage, hpulse⟩
  obtain ⟨r, hrun, hr⟩ :=
    run_waits (P := Dispatched s.regs.hyp) (fun _ _ cycle x h => h.edge cycle x) hstim hstart k (by omega)
  obtain ⟨t, rfl⟩ : ∃ t, k = t + 1 := ⟨k - 1, by omega⟩
  obtain ⟨-, -, -, hlanes⟩ := hr
  refine ⟨r, hrun, fun i => ⟨fun hbusy => (hlanes i).1 (by omega), fun hdone => (hlanes i).2 (by omega)⟩⟩

section Contract

variable {c : Config} {x : Codeword c.W} {k : Nat} {r : Regs c}

/-- The stage `k` edges after the start edge, and the AWAIT edges counted by then (42_arbitration.md R186, R187). -/
def OnTime (r : Regs c) : Nat → Prop
  | 0 => r.stage = .gen
  | 1 => r.stage = .flip
  | 2 => r.stage = .dispa
  | 3 => r.stage = .dispr
  | t + 4 => (r.stage = .await ∧ r.tmo.toNat = t) ∨ (r.stage = .term ∧ r.tmo.toNat ≤ t)

/-- The registers `k` edges after a start edge with word `x`, with neither rst nor start since. -/
structure Decoding (x : Codeword c.W) (k : Nat) (r : Regs c) : Prop where
  inv : DecodeInv r
  received : r.received = x
  time : OnTime r k

/-- A start edge begins a decode, whatever it interrupts. -/
theorem decoding_start (cycle : Nat) (x : Codeword c.W) (r : Regs c) :
    Decoding x 0 (regsAfter cycle false true x r) :=
  ⟨decodeInv_start cycle x r, by simp [Regs.received], by simp [OnTime]⟩

/-- One edge takes a decode one stage or one AWAIT edge on. -/
theorem Decoding.onTime_succ (h : Decoding x k r) (cycle : Nat) (d : Codeword c.W) :
    OnTime (regsAfter cycle false false d r) (k + 1) := by
  obtain ⟨hinv, -, htime⟩ := h
  match k, htime with
  | 0, hstage | 1, hstage | 2, hstage =>
    simp only [OnTime] at hstage
    simp [OnTime, hstage, stageOp, effect]
  | 3, hstage =>
    simp only [OnTime] at hstage
    obtain ⟨htmo, -⟩ := hinv.cleared (by simp [hstage]) (by simp [hstage])
    simp [OnTime, hstage, stageOp, effect, htmo]
  | t + 4, .inl ⟨hstage, htmo⟩ =>
    have hcount : (nextTmo c cycle r.tmo).toNat = t + 1 := by
      rw [nextTmo_toNat (hinv.counter.2 (by simp [hstage])), htmo]
    simpa [OnTime, hstage, stageOp, effect, hcount] using await_stage cycle r
  | t + 4, .inr ⟨hstage, htmo⟩ =>
    refine .inr ⟨?_, ?_⟩
    · rw [regsAfter_stage, orchAfter_term cycle d hstage, hstage]
    · rw [regsAfter_tmo, orchAfter_term cycle d hstage]
      omega

theorem Decoding.edge (h : Decoding x k r) (cycle : Nat) (d : Codeword c.W) :
    Decoding x (k + 1) (regsAfter cycle false false d r) :=
  ⟨h.inv.edge_quiet cycle d, by rw [regsAfter_quiet_received, h.received], h.onTime_succ cycle d⟩

/-- Until its end a decode has taken at most four edges beside the AWAIT edges it has counted. -/
theorem Decoding.of_ne_term (h : Decoding x k r) (hstage : r.stage ≠ .term) :
    k < 4 ∨ (r.stage = .await ∧ k = r.tmo.toNat + 4) := by
  obtain ⟨-, -, htime⟩ := h
  match k, htime with
  | 0, _ | 1, _ | 2, _ | 3, _ => exact .inl (by omega)
  | t + 4, .inl ⟨hawait, htmo⟩ => exact .inr ⟨hawait, by omega⟩
  | t + 4, .inr ⟨hterm, _⟩ => exact absurd hterm hstage

/-- At its end a decode has taken four edges and the AWAIT edges it has counted. -/
theorem Decoding.le_of_term (h : Decoding x k r) (hstage : r.stage = .term) : r.tmo.toNat + 4 ≤ k := by
  obtain ⟨-, -, htime⟩ := h
  match k, htime with
  | 0, hother | 1, hother | 2, hother | 3, hother => simp [OnTime, hstage] at hother
  | t + 4, .inl ⟨hawait, _⟩ => simp [hstage] at hawait
  | t + 4, .inr ⟨_, htmo⟩ => omega

theorem IsWinner.unique {w v : Fin (c.W + 1)} (hw : IsWinner x w) (hv : IsWinner x v) : w = v := by
  obtain ⟨hwvalid, hwhigh⟩ := hw
  obtain ⟨hvvalid, hvhigh⟩ := hv
  rcases lt_trichotomy w v with hlt | heq | hgt
  · exact absurd hvvalid (hwhigh v hlt)
  · exact heq
  · exact absurd hwvalid (hvhigh w hgt)

/-- With a valid hypothesis the result shows from edge W+4 on (42_arbitration.md R186, R190). -/
theorem Decoding.outputs_of_isWinner (h : Decoding x k r) {w : Fin (c.W + 1)} (hw : IsWinner x w) :
    r.outputs = if k < c.W + 4 then noResult c.D else corrected (slice c (hypothesis x w)) := by
  have hW := c.W_pos
  by_cases hstage : r.stage = .term
  · have hlate := h.le_of_term hstage
    obtain ⟨-, hended⟩ := h.inv.ended hstage
    rw [h.received] at hended
    rcases hended with ⟨v, hv, houtputs, htmo⟩ | ⟨hnone, -, -⟩
    · rw [houtputs, if_neg (by omega), hv.unique hw]
    · exact absurd hw.1 (hnone w)
  · have hearly : k < c.W + 4 := by
      rcases h.of_ne_term hstage with hk | ⟨hawait, hk⟩
      · omega
      · obtain ⟨-, hnone⟩ := awaitInv_iff.1 (h.inv.awaiting hawait)
        rw [h.received] at hnone
        have hfirst : ¬ c.W - 1 < r.tmo.toNat := fun hlate => hnone hlate w hw.1
        omega
    rw [h.inv.outputs_of_ne_term hstage, if_pos hearly]

/-- With no valid hypothesis failure shows from edge TMO_BOUND+6 on (42_arbitration.md R187, R190). -/
theorem Decoding.outputs_of_uncorrectable (h : Decoding x k r) (hnone : Uncorrectable x) :
    r.outputs = if k < c.tmoBound + 6 then noResult c.D else uncorrectable c.D := by
  by_cases hstage : r.stage = .term
  · have hlate := h.le_of_term hstage
    obtain ⟨-, hended⟩ := h.inv.ended hstage
    rw [h.received] at hended
    rcases hended with ⟨v, hv, -, -⟩ | ⟨-, houtputs, htmo⟩
    · exact absurd hv.1 (hnone v)
    · rw [houtputs, if_neg (by omega)]
  · have hearly : k < c.tmoBound + 6 := by
      rcases h.of_ne_term hstage with hk | ⟨hawait, hk⟩
      · omega
      · have := h.inv.counter.2 hstage
        omega
    rw [h.inv.outputs_of_ne_term hstage, if_pos hearly]

end Contract

/-- Settles O47: the start edge begins the decode and each edge carries it on, and at any edge the invariant with the time
taken gives the outputs. -/
theorem uninterruptedDecodeMeetsItsContract : Obligations.UninterruptedDecodeMeetsItsContract := by
  intro s x ds p hstim k hk
  obtain ⟨r, hrun, hr⟩ := run_decode (P := Decoding x) (fun _ _ cycle d h => h.edge cycle d) hstim
    (decoding_start s.cycle x s.regs) k hk
  exact ⟨r, hrun, fun w hw => hr.outputs_of_isWinner hw, hr.outputs_of_uncorrectable⟩

section Outcomes

variable {s : State} {x : Codeword s.cfg.W} {ds : List (Codeword s.cfg.W)} {p : List (BitVec (s.cfg.W + 2))}
  (hstim : s.stim = startWord x :: (ds.map waitWord ++ p))

include hstim

/-- A decode with a valid hypothesis that has had W+4 edges shows its slice (42_arbitration.md R190). -/
theorem run_decode_of_isWinner {w : Fin (s.cfg.W + 1)} (hw : IsWinner x w) (hlength : s.cfg.W + 4 ≤ ds.length) :
    ∃ r : Regs s.cfg, run (ds.length + 1) s = .next (s.after (ds.length + 1) r) ∧
      r.outputs = corrected (slice s.cfg (hypothesis x w)) := by
  obtain ⟨r, hrun, hwinner, -⟩ := uninterruptedDecodeMeetsItsContract s x ds p hstim ds.length le_rfl
  exact ⟨r, hrun, by rw [hwinner w hw, if_neg (by omega)]⟩

/-- A decode that has had TMO_BOUND+6 edges has ended, with success exactly if some hypothesis is valid
(42_arbitration.md R187, R193). -/
theorem run_decode_ends (hlength : s.cfg.tmoBound + 6 ≤ ds.length) :
    ∃ r : Regs s.cfg, run (ds.length + 1) s = .next (s.after (ds.length + 1) r) ∧ r.done = true ∧
      ((r.success = true ∧ ∃ i : Fin (s.cfg.W + 1), Valid x i) ∨
        (r.success = false ∧ r.dout = 0 ∧ ∀ i : Fin (s.cfg.W + 1), ¬ Valid x i)) := by
  have hbound := s.cfg.tmo_ok
  obtain ⟨r, hrun, hwinner, hfailure⟩ := uninterruptedDecodeMeetsItsContract s x ds p hstim ds.length le_rfl
  refine ⟨r, hrun, ?_⟩
  rcases exists_isWinner_or_uncorrectable x with ⟨w, hw⟩ | hnone
  · have houtputs := hwinner w hw
    rw [if_neg (by omega)] at houtputs
    obtain ⟨hdone, hsuccess, -⟩ := outputs_eq_corrected_iff.1 houtputs
    exact ⟨hdone, .inl ⟨hsuccess, w, hw.1⟩⟩
  · have houtputs := hfailure hnone
    rw [if_neg (by omega)] at houtputs
    obtain ⟨hdone, hsuccess, hdout⟩ := outputs_eq_uncorrectable_iff.1 houtputs
    exact ⟨hdone, .inr ⟨hsuccess, hdout, hnone⟩⟩

end Outcomes

/-- Settles O48: TMO_BOUND+6 edges are enough, and 2W+8 is that many for the bound W+2. -/
theorem everyDecodeEnds : Obligations.EveryDecodeEnds := by
  intro s x ds p hstim
  have hends (hlength : s.cfg.tmoBound + 6 ≤ ds.length) :
      ∃ r : Regs s.cfg, run (ds.length + 1) s = .next (s.after (ds.length + 1) r) ∧ r.done = true := by
    obtain ⟨r, hrun, hdone, -⟩ := run_decode_ends hstim hlength
    exact ⟨r, hrun, hdone⟩
  exact ⟨hends, fun hdefault hlength => hends (by omega)⟩

section Correction

variable {c : Config} {v : Codeword c.W}

/-- A codeword is its own highest valid hypothesis (42_arbitration.md R191). -/
theorem isWinner_last (hv : syndrome c v = 0) : IsWinner v (Fin.last c.W) :=
  ⟨valid_last_iff.2 hv, fun j hj => absurd hj (Fin.le_last j).not_gt⟩

/-- With good columns the flipped bit's candidate is the only valid one, and it is the codeword (42_arbitration.md
R192). -/
theorem isWinner_flip (hgood : GoodColumns c) (hv : syndrome c v = 0) {i : Fin (c.W + 1)} (hi : i.val < c.W) :
    IsWinner (flip v i.val) i := by
  have hvalid : Valid (flip v i.val) i := by
    rw [valid_iff_syndrome_eq_zero, hypothesis_of_lt hi, flip_flip, hv]
  refine ⟨hvalid, fun j hj hjvalid => ?_⟩
  exact hj.ne (goodColumnsLeaveOneHypothesis c hgood _ _ _ hvalid hjvalid)

end Correction

/-- Settles O49: slot W's hypothesis, the word itself, wins. -/
theorem validWordsDecodeToThemselves : Obligations.ValidWordsDecodeToThemselves := by
  intro s v ds p hstim hv hlength
  simpa using run_decode_of_isWinner hstim (isWinner_last hv) hlength

/-- Settles O50: the flipped bit's hypothesis, the codeword, wins. -/
theorem singleErrorsAreCorrected : Obligations.SingleErrorsAreCorrected := by
  intro s v b ds p hstim hgood hv hb hlength
  have hwinner := isWinner_flip hgood hv (i := ⟨b, by omega⟩) hb
  have hcodeword : hypothesis (flip v b) (⟨b, by omega⟩ : Fin (s.cfg.W + 1)) = v := by
    rw [hypothesis_of_lt hb, flip_flip]
  simpa only [hcodeword] using run_decode_of_isWinner hstim hwinner hlength

/-- Some hypothesis is valid exactly if a codeword lies within one bit (42_arbitration.md R193). -/
theorem exists_valid_iff {c : Config} {x : Codeword c.W} :
    (∃ i : Fin (c.W + 1), Valid x i) ↔ syndrome c x = 0 ∨ ∃ j, j < c.W ∧ syndrome c (flip x j) = 0 := by
  simp only [valid_iff_syndrome_eq_zero]
  constructor
  · rintro ⟨i, hi⟩
    rcases lt_or_eq_last i with hlt | rfl
    · exact .inr ⟨i, hlt, by rwa [hypothesis_of_lt hlt] at hi⟩
    · exact .inl (by rwa [hypothesis_last] at hi)
  · rintro (hx | ⟨j, hj, hflip⟩)
    · exact ⟨Fin.last c.W, by rwa [hypothesis_last]⟩
    · exact ⟨⟨j, by omega⟩, by rwa [hypothesis_of_lt (i := ⟨j, by omega⟩) hj]⟩

/-- Settles O51: the decode has ended, with success exactly if some hypothesis is valid. -/
theorem failureMeansNoCodewordWithinOneBit : Obligations.FailureMeansNoCodewordWithinOneBit := by
  intro s x ds p hstim hlength
  obtain ⟨r, hrun, hdone, houtcome⟩ := run_decode_ends hstim hlength
  have hnear : (syndrome s.cfg x ≠ 0 ∧ ∀ j, j < s.cfg.W → syndrome s.cfg (flip x j) ≠ 0) ↔
      ¬ ∃ i : Fin (s.cfg.W + 1), Valid x i := by
    rw [exists_valid_iff]
    push Not
    rfl
  refine ⟨r, hrun, ?_⟩
  rw [hnear, ← exists_valid_iff]
  rcases houtcome with ⟨hsuccess, hvalid⟩ | ⟨hsuccess, hdout, hnone⟩
  · simp [hsuccess, hvalid]
  · simp [hdone, hsuccess, hdout, hnone]

/-- Settles O53: DECODE's words are a start word and TMO_BOUND+6 quiet ones, DECODE_FAST's a start word and W+4. -/
theorem decodeStatementsRunLongEnough : Obligations.DecodeStatementsRunLongEnough := by
  intro s x p
  have hquiet (n : Nat) : List.replicate n (waitWord 0) = (List.replicate n (0 : Codeword s.cfg.W)).map waitWord := by
    rw [List.map_replicate]
  constructor
  · intro hstim
    rw [Stmt.words, hquiet, List.cons_append] at hstim
    have hends := (everyDecodeEnds s _ _ p hstim).1
    rw [List.length_replicate] at hends
    exact hends le_rfl
  · intro hstim
    rw [Stmt.words, hquiet, List.cons_append] at hstim
    have hbound := s.cfg.tmo_ok
    obtain ⟨r, hrun, hwinner, hfailure⟩ :=
      uninterruptedDecodeMeetsItsContract s _ _ p hstim (s.cfg.W + 4) (by rw [List.length_replicate])
    refine ⟨r, hrun, ?_⟩
    rcases exists_isWinner_or_uncorrectable (BitVec.ofNat s.cfg.W x) with ⟨w, hw⟩ | hnone
    · have houtputs := hwinner w hw
      rw [if_neg (by omega)] at houtputs
      obtain ⟨hdone, hsuccess, -⟩ := outputs_eq_corrected_iff.1 houtputs
      simp [hdone, hsuccess]
    · have houtputs := hfailure hnone
      rw [if_pos (by omega)] at houtputs
      obtain ⟨hdone, hsuccess, -⟩ := outputs_eq_noResult_iff.1 houtputs
      simp [hdone, hsuccess]

end Sys2Proof.Machine
end

section
/-!
SUPPORT. A start edge forgets the past (70_reset_and_hazards.md R251): two cores that agree on the received word, the stage,
the counter and the outputs, both in the decode invariant, agree after every edge with the same inputs.
-/

namespace Sys2Proof.Machine

open Sys2Proof

variable {c : Config}

/-- Two cores in the same place of a decode of the same word. -/
structure Alike (r q : Regs c) : Prop where
  left : DecodeInv r
  right : DecodeInv q
  received : r.received = q.received
  stage : r.stage = q.stage
  tmo : r.tmo = q.tmo
  outputs : r.outputs = q.outputs

section Edge

variable {r q : Regs c} (n m : Nat) (x : Codeword c.W)

/-- In AWAIT cores in the same place of a decode arbitrate alike. -/
theorem Alike.arbitrate_eq (h : Alike r q) (hstage : r.stage = .await) : arbitrate r = arbitrate q := by
  ext w
  rw [h.left.arbitrate_eq_some_iff hstage, h.right.arbitrate_eq_some_iff (h.stage ▸ hstage), h.received, h.tmo]

/-- AWAIT publishes the same result, or none, in cores in the same place of a decode. -/
theorem Alike.await (h : Alike r q) (hstage : r.stage = .await) :
    (r.await n).stage = (q.await m).stage ∧ (r.await n).outputs = (q.await m).outputs := by
  obtain ⟨hdone, hsuccess, hdout⟩ : r.done = q.done ∧ r.success = q.success ∧ r.dout = q.dout := by
    simpa [Regs.outputs] using h.outputs
  have hslot (w : Fin (c.W + 1)) : r.hyp.get w = q.hyp.get w := by
    rw [h.left.candidates_of_await hstage w, h.right.candidates_of_await (h.stage ▸ hstage) w, h.received]
  unfold Regs.await
  rw [← h.arbitrate_eq hstage]
  cases arbitrate r with
  | some w => simp [Regs.outputs, hslot]
  | none =>
    have htime : timedOut r = timedOut q := by rw [timedOut, timedOut, h.tmo]
    by_cases ht : timedOut q = true <;> simp [htime, ht, Regs.outputs, hdone, hsuccess, hdout]

/-- An edge with neither rst nor start keeps two cores in the same place of a decode. -/
theorem Alike.quiet (h : Alike r q) :
    (orchAfter n false false x r).stage = (orchAfter m false false x q).stage ∧
    (orchAfter n false false x r).tmo = (orchAfter m false false x q).tmo ∧
    (orchAfter n false false x r).outputs = (orchAfter m false false x q).outputs := by
  have houtputs := h.outputs
  cases hstage : r.stage with
  | await =>
    obtain ⟨hnext, hresult⟩ := h.await n m hstage
    have htmo : nextTmo c n r.tmo = nextTmo c m q.tmo := by
      have hrange : q.tmo.toNat ≤ c.tmoBound + 1 := h.right.counter.2 (by simp [← h.stage, hstage])
      rw [h.tmo]
      exact BitVec.eq_of_toNat_eq (by rw [nextTmo_toNat hrange, nextTmo_toNat hrange])
    simp [← h.stage, hstage, stageOp, effect, hnext, hresult, htmo]
  | idle | gen | flip | dispa | dispr | term | reserved7 =>
    simp only [Regs.outputs] at houtputs
    simp [← h.stage, hstage, stageOp, effect, h.tmo, Regs.outputs, houtputs]

/-- Every edge with the same inputs keeps two cores in the same place of a decode. -/
theorem Alike.edge (h : Alike r q) (rst start : Bool) :
    Alike (regsAfter n rst start x r) (regsAfter m rst start x q) := by
  have hleft := h.left.edge n start x rst
  have hright := h.right.edge m start x rst
  match rst, start with
  | true, _ => exact ⟨hleft, hright, h.received, rfl, rfl, rfl⟩
  | false, true => exact ⟨hleft, hright, by simp [Regs.received], rfl, rfl, rfl⟩
  | false, false =>
    obtain ⟨hstage, htmo, houtputs⟩ := h.quiet n m x
    exact ⟨hleft, hright, by simp [h.received], hstage, htmo, houtputs⟩

/-- A start edge puts any two cores in the same place of a decode (41_orchestrator.md R159). -/
theorem alike_start (r q : Regs c) : Alike (regsAfter n false true x r) (regsAfter m false true x q) :=
  ⟨decodeInv_start n x r, decodeInv_start m x q, by simp [Regs.received], rfl, rfl, rfl⟩

end Edge

/-- A run given its words: the first word gives the first edge's inputs. -/
theorem run_cons (k n : Nat) (r : Regs c) (w : BitVec (c.W + 2)) (p : List (BitVec (c.W + 2))) :
    run (k + 1) ⟨c, r, w :: p, n⟩ = run k ⟨c, regsAfter n (scwRst w) (scwStart w) (scwData w) r, p, n + 1⟩ :=
  run_succ k _

/-- Given the same words, two cores in the same place of a decode stay so. -/
theorem Alike.run {r q : Regs c} (h : Alike r q) (n m : Nat) (p : List (BitVec (c.W + 2))) (k : Nat)
    (hk : k ≤ p.length) :
    ∃ r' q' : Regs c,
      Machine.run k ⟨c, r, p, n⟩ = .next (⟨c, r', p.drop k, n + k⟩ : State) ∧
      Machine.run k ⟨c, q, p, m⟩ = .next (⟨c, q', p.drop k, m + k⟩ : State) ∧ Alike r' q' := by
  induction k generalizing r q n m p with
  | zero => exact ⟨r, q, rfl, rfl, h⟩
  | succ k ih =>
    match p, hk with
    | w :: p, hk =>
      obtain ⟨r', q', hr, hq, h'⟩ :=
        ih (h.edge n m (scwData w) (scwRst w) (scwStart w)) (n + 1) (m + 1) p (by simpa using hk)
      refine ⟨r', q', ?_, ?_, h'⟩
      · rw [run_cons, ← Nat.add_assoc, Nat.add_right_comm n k 1]
        exact hr
      · rw [run_cons, ← Nat.add_assoc, Nat.add_right_comm m k 1]
        exact hq

/-- Settles O52: the start edge puts both cores in the same place, and every later edge keeps them there. -/
theorem startEdgeForgetsThePast : Obligations.StartEdgeForgetsThePast := by
  intro c r₁ r₂ n₁ n₂ x p k hk
  obtain ⟨q₁, q₂, hrun₁, hrun₂, halike⟩ := (alike_start n₁ n₂ x r₁ r₂).run (n₁ + 1) (n₂ + 1) p k hk
  refine ⟨q₁, q₂, ?_, ?_, halike.outputs, halike.stage⟩
  · rw [run_cons, startWord, scwRst_scw, scwStart_scw, scwData_scw, ← Nat.add_assoc, Nat.add_right_comm n₁ k 1]
    exact hrun₁
  · rw [run_cons, startWord, scwRst_scw, scwStart_scw, scwData_scw, ← Nat.add_assoc, Nat.add_right_comm n₂ k 1]
    exact hrun₂

end Sys2Proof.Machine
end

section
/-!
SUPPORT. The proofs about encodings and the configuration (30_encoding.md, 00_scope.md R6, R7): control words, stimulus words,
and which parameters a core is built from.
-/

namespace Sys2Proof.Machine

open Sys2Proof

/-! ## Control words -/

/-- Settles O1: each clause is a row of `decode_ocw_ok` or `decode_lcw_ok`. -/
theorem controlWordsSelectTheirOperations : Obligations.ControlWordsSelectTheirOperations :=
  ⟨decode_ocw_ok true, decode_ocw_ok false true, decode_ocw_ok false false .idle, decode_ocw_ok false false .gen,
    decode_ocw_ok false false .flip, decode_ocw_ok false false .dispa, decode_ocw_ok false false .dispr,
    decode_ocw_ok false false .await, decode_ocw_ok false false .term, decode_ocw_ok false false .reserved7,
    decode_lcw_ok true, decode_lcw_ok false true, decode_lcw_ok false false true,
    decode_lcw_ok false false false .vred, decode_lcw_ok false false false .vidle⟩

/-- A number that does not fit a format is refused (30_encoding.md R94, R96). -/
theorem decode_of_not_fits {f : Format} {w : Nat} (h : f.fits w = false) : decode f w = .error .tooWide := by
  simp [decode, h]

/-- Settles O2: each word is the control word of its fields, or does not fit. -/
theorem writtenOutWordsDecode : Obligations.WrittenOutWordsDecode :=
  ⟨decode_ocw_ok true false .idle, decode_ocw_ok true true .await, decode_ocw_ok false true .idle,
    decode_ocw_ok false true .term, decode_ocw_ok false false .gen, decode_ocw_ok false false .await,
    decode_ocw_ok false false .term, decode_of_not_fits rfl, decode_lcw_ok true false true .vred,
    decode_lcw_ok false true true .vidle, decode_lcw_ok false false true .vred, decode_lcw_ok false false false .vred,
    decode_of_not_fits rfl⟩

/-- Each of the 32 orchestrator words has one row (30_encoding.md R94). -/
theorem ocw_selected_once : ∀ w < 2 ^ Format.ocw.bits, ((opTable .ocw).filter fun row => row.selects w).length = 1 := by
  decide

/-- Each of the 16 lane words has one row (30_encoding.md R96). -/
theorem lcw_selected_once : ∀ w < 2 ^ Format.lcw.bits, ((opTable .lcw).filter fun row => row.selects w).length = 1 := by
  decide

/-- Settles O3, by the words of each format. -/
theorem everyControlWordHasExactlyOneRow : Obligations.EveryControlWordHasExactlyOneRow := by
  refine fun f w => ⟨fun hfits => ?_, decode_of_not_fits⟩
  have hw : w < 2 ^ f.bits := of_decide_eq_true hfits
  cases f with
  | ocw => exact ocw_selected_once w hw
  | lcw => exact lcw_selected_once w hw

/-! ## Stimulus words -/

section StimulusWords

variable {W : Nat}

/-- The number a stimulus cycle word is (30_encoding.md R99). -/
theorem scw_toNat (rst start : Bool) (x : Codeword W) :
    (scw rst start x).toNat = rst.toNat * 2 ^ (W + 1) + start.toNat * 2 ^ W + x.toNat := by
  have hbits : (scw rst start x).toNat = ((rst.toNat <<< 1 ||| start.toNat) <<< W) ||| x.toNat := by
    simp only [scw, BitVec.toNat_cast, BitVec.toNat_append, BitVec.toNat_ofBool]
  have hstart : start.toNat < 2 ^ 1 := start.toNat_lt
  rw [hbits, ← Nat.shiftLeft_add_eq_or_of_lt hstart, ← Nat.shiftLeft_add_eq_or_of_lt x.isLt]
  simp only [Nat.shiftLeft_eq]
  ring

/-- A stimulus cycle word is the word of its fields (30_encoding.md R99). -/
theorem scw_fields (w : BitVec (W + 2)) : scw (scwRst w) (scwStart w) (scwData w) = w := by
  apply BitVec.eq_of_getLsbD_eq
  intro j hj
  rw [scw_getLsbD]
  rcases (by omega : j < W ∨ j = W ∨ j = W + 1) with h | rfl | rfl
  · simp [scwData, h]
  · simp [scwStart]
  · simp [scwRst]

theorem startWord_toNat (x : Codeword W) : (startWord x).toNat = 2 ^ W + x.toNat := by simp [startWord, scw_toNat]

theorem waitWord_toNat (x : Codeword W) : (waitWord x).toNat = x.toNat := by simp [waitWord, scw_toNat]

end StimulusWords

/-- Settles O4, bit by bit (`scw_getLsbD`) and as numbers. -/
theorem stimulusWordRoundTrip : Obligations.StimulusWordRoundTrip :=
  fun _ => ⟨fun rst start x =>
    ⟨scwRst_scw rst start x, scwStart_scw rst start x, scwData_scw rst start x, scw_toNat rst start x⟩, scw_fields⟩

/-- Settles O5: a W-bit literal is the number it stands for. -/
theorem stimulusStatementsPresentTheirWords : Obligations.StimulusStatementsPresentTheirWords := by
  intro c x k hx
  have hliteral : (BitVec.ofNat c.W x).toNat = x := by rw [BitVec.toNat_ofNat, Nat.mod_eq_of_lt hx]
  refine ⟨?_, ?_, ?_, ?_, ?_, rfl, rfl⟩
  · simp [Stmt.words, resetWord, scw_toNat]
  · simp only [Stmt.words, List.map_cons, List.map_nil, startWord_toNat, hliteral]
  · simp [Stmt.words, waitWord_toNat]
  · simp only [Stmt.words, List.map_replicate, waitWord_toNat, hliteral]
  · simp only [Stmt.words, List.map_replicate, startWord_toNat, hliteral]

/-! ## The configuration -/

/-- The conditions of 00_scope.md R7, the row count among them (log 16). -/
structure WellFormedParams (p : Params) : Prop where
  W_pos : 1 ≤ p.W
  R_pos : 1 ≤ p.R
  D_pos : 1 ≤ p.D
  D_le : p.D ≤ p.W
  rows : p.H.length = p.R
  fits : ∀ h ∈ p.H, h < 2 ^ p.W
  tmo_ok : p.W - 1 ≤ p.tmoBound

/-- The configuration of well-formed parameters. -/
def configOf (p : Params) (h : WellFormedParams p) : Config where
  W := p.W
  R := p.R
  D := p.D
  H := Bank.ofFn fun r => BitVec.ofNat p.W (p.H.getD r.val 0)
  tmoBound := p.tmoBound
  dataSlice := p.dataSlice
  W_pos := h.W_pos
  R_pos := h.R_pos
  D_pos := h.D_pos
  D_le := h.D_le
  tmo_ok := h.tmo_ok

/-- What `Params.build` answers. -/
theorem build_eq_ok_iff (p : Params) (c : Config) : p.build = .ok c ↔ ∃ h : WellFormedParams p, configOf p h = c := by
  unfold Params.build
  constructor
  · intro hbuild
    split_ifs at hbuild with hW hR hD hDW hrows hfit hT
    injection hbuild with hc
    exact ⟨⟨hW, hR, hD, hDW, hrows, by simpa using hfit, hT⟩, hc⟩
  · rintro ⟨⟨hW, hR, hD, hDW, hrows, hfit, hT⟩, rfl⟩
    have hfit' : p.H.all (fun h => decide (h < 2 ^ p.W)) = true := by simpa using hfit
    rw [dif_pos hW, dif_pos hR, dif_pos hD, dif_pos hDW, if_pos hrows, if_pos hfit', dif_pos hT]
    rfl

/-- The configuration holds the rows as they were given (30_encoding.md R91). -/
theorem configOf_params (p : Params) (h : WellFormedParams p) : (configOf p h).params = p := by
  have hH : (List.ofFn fun r : Fin p.R => (BitVec.ofNat p.W (p.H.getD r.val 0)).toNat) = p.H := by
    refine List.ext_getElem (by simp [h.rows]) fun k _ hk => ?_
    simp [hk, Nat.mod_eq_of_lt (h.fits _ (List.getElem_mem hk))]
  cases p
  simpa [Config.params, configOf, Bank.ofFn, List.map_ofFn, Function.comp_def] using hH

/-- A configuration's own parameters are well formed. -/
theorem params_wellFormed (c : Config) : WellFormedParams c.params := by
  refine ⟨c.W_pos, c.R_pos, c.D_pos, c.D_le, by simp [Config.params, c.H.size], fun h hh => ?_, c.tmo_ok⟩
  obtain ⟨row, -, rfl⟩ := List.mem_map.1 hh
  exact row.isLt

/-- A configuration is that of its own parameters. -/
theorem configOf_of_params (c : Config) : configOf c.params (params_wellFormed c) = c := by
  have hH : (Bank.ofFn fun r : Fin c.R => BitVec.ofNat c.W ((c.H.data.map BitVec.toNat).getD r.val 0)) = c.H := by
    ext1 r
    have hr : r.val < c.H.data.length := by rw [c.H.size]; exact r.isLt
    rw [Bank.get_ofFn]
    simp [Bank.get, hr]
  calc configOf c.params (params_wellFormed c)
      = { c with H := Bank.ofFn fun r => BitVec.ofNat c.W ((c.H.data.map BitVec.toNat).getD r.val 0) } := rfl
    _ = c := by rw [hH]

/-- Settles O6, from what `Params.build` answers. -/
theorem buildRefusesExactlyTheMalformed : Obligations.BuildRefusesExactlyTheMalformed := by
  intro p
  constructor
  · rintro ⟨c, hc⟩
    obtain ⟨⟨hW, hR, hD, hDW, hrows, hfit, hT⟩, -⟩ := (build_eq_ok_iff p c).1 hc
    exact ⟨hW, hR, hD, hDW, hrows, hfit, hT⟩
  · rintro ⟨hW, hR, hD, hDW, hrows, hfit, hT⟩
    exact ⟨_, (build_eq_ok_iff p _).2 ⟨⟨hW, hR, hD, hDW, hrows, hfit, hT⟩, rfl⟩⟩

/-- Settles O7: parameters and configuration determine each other. -/
theorem buildKeepsTheParameters : Obligations.BuildKeepsTheParameters := by
  refine ⟨fun p c hc => ?_, fun c => (build_eq_ok_iff _ c).2 ⟨params_wellFormed c, configOf_of_params c⟩⟩
  obtain ⟨hwf, rfl⟩ := (build_eq_ok_iff p c).1 hc
  exact configOf_params p hwf

end Sys2Proof.Machine
end

section
/-!
SUPPORT. The proofs about each operation (41_orchestrator.md section 2, 42_arbitration.md section 2, 40_parity_validator.md
section 3): what it writes, and that a register it changes has it among its writers (10_state.md sections 2 and 3).
-/

namespace Sys2Proof.Machine

open Sys2Proof

/-! ## The orchestrator's operations -/

section OrchestratorWrites

variable {c : Config} (r : Regs c)

@[simp] theorem Regs.dispr_outputs : r.dispr.outputs = r.outputs := rfl

/-- LOAD writes the received word's slot (41_orchestrator.md R151). -/
@[simp] theorem Regs.load_received (x : Codeword c.W) : (r.load x).received = x := by simp [Regs.received]

/-- FLIP does not write slot W (41_orchestrator.md R154). -/
@[simp] theorem Regs.flip_received : r.flip.received = r.received := by simp [Regs.received]

end OrchestratorWrites

/-- Settles O15, from RESET's writes and its frame. -/
theorem resetWritesItsRegisters : Obligations.ResetWritesItsRegisters :=
  fun s => ⟨s.regs.reset, exec_eq .reset s, rfl, rfl, rfl, rfl, rfl, fun i => by simp [Lane.Cleared]⟩

/-- Settles O16, from LOAD's writes and its frame. -/
theorem loadLatchesTheReceivedWord : Obligations.LoadLatchesTheReceivedWord :=
  fun s => ⟨s.regs.load s.dataInput, exec_eq .load s, s.regs.load_received _, fun i hi => by rw [Regs.load_hyp, if_pos hi],
    rfl, rfl, rfl, rfl, rfl⟩

/-- Settles O19, bit by bit (`flip_getLsbD`). -/
theorem flipInvertsOneBitPerSlot : Obligations.FlipInvertsOneBitPerSlot := by
  refine fun s => ⟨s.regs.flip, exec_eq .flip s, fun i hi j hj => ?_, s.regs.flip_received, rfl, rfl, rfl, rfl, rfl⟩
  rw [Regs.flip_hyp, if_pos hi, flip_getLsbD _ _ _ hj]

/-- Settles O21: the lanes read the pulse as it was before DISPR released it. -/
theorem disprReleasesThePulseAndLanesStart : Obligations.DisprReleasesThePulseAndLanesStart := by
  refine ⟨decode_ocw_ok false false .dispr, fun s => ⟨s.regs.dispr, exec_eq .dispr s, by simp⟩, ?_⟩
  intro s hrst hstart hstage hpulse
  have hedge := orchAfter_dispr s.cycle s.dataInput hstage
  refine ⟨_, step_eq s, ?_⟩
  rw [hrst, hstart]
  refine ⟨by simp [hedge], by simp [hedge], fun i => ?_⟩
  rw [regsAfter_lanes, laneAfter_mask s.cycle hpulse]
  exact ⟨fun hW => Lane.mask_reducing hW _ _, fun hW => Lane.mask_finished hW _ _⟩

section Await

variable {c : Config} {r : Regs c} (cycle : Nat)

/-- AWAIT with a winner publishes it (42_arbitration.md R182). -/
theorem await_of_winner {w : Fin (c.W + 1)} (h : arbitrate r = some w) : r.await cycle = r.succeed cycle w := by
  simp [Regs.await, h]

/-- AWAIT with no winner past the bound declares failure (42_arbitration.md R183). -/
theorem await_of_timedOut (h : arbitrate r = none) (ht : c.tmoBound < r.tmo.toNat) :
    r.await cycle = r.timeOut cycle := by
  simp [Regs.await, h, timedOut, ht]

/-- AWAIT with no winner within the bound waits (42_arbitration.md R182). -/
theorem await_of_waiting (h : arbitrate r = none) (ht : r.tmo.toNat ≤ c.tmoBound) :
    r.await cycle = r.keepWaiting cycle := by
  simp [Regs.await, h, timedOut, Nat.not_lt_of_le ht]

end Await

/-- Settles O23: the scan finds `w`, so AWAIT takes its success branch. -/
theorem awaitPublishesTheWinner : Obligations.AwaitPublishesTheWinner := by
  intro s w hdone hzero hhigher
  have hwinner : arbitrate s.regs = some w := (arbitrate_eq_some s.regs w).2 ⟨hdone, hzero, hhigher⟩
  have hawait := await_of_winner s.cycle hwinner
  refine ⟨s.regs.await s.cycle, exec_eq .await s, ?_⟩
  rw [hawait]
  exact ⟨rfl, rfl, fun ht => nextTmo_toNat (by omega), rfl, rfl, rfl⟩

/-- Settles O24: no winner leaves the two branches the bound separates. -/
theorem awaitTimesOutOrKeepsWaiting : Obligations.AwaitTimesOutOrKeepsWaiting := by
  intro s hnone
  have hfail := (arbitrate_eq_none s.regs).2 hnone
  obtain ⟨hsuccess, hdout⟩ := await_keeps_result s.cycle s.regs hfail
  refine ⟨s.regs.await s.cycle, exec_eq .await s, fun ht => ?_, fun ht => ?_, fun ht => ?_, lt_two_pow_widthOf le_rfl,
    hsuccess, hdout, by simp, by simp, by simp⟩
  · simp [await_of_timedOut s.cycle hfail ht]
  · simp [await_of_waiting s.cycle hfail ht]
  · rw [await_tmo, nextTmo_toNat_of_lt ht]

/-! ## The lanes' operations -/

section Mask

variable {c : Config} (v : Codeword c.W) (l : Lane c)

@[simp] theorem Lane.mask_m : (l.mask v).m = maskedRows c v := by
  unfold Lane.mask
  split <;> rfl

@[simp] theorem Lane.mask_acc (q : Fin c.R) : (l.mask v).acc.get q = (v &&& c.H.get q).getLsbD 0 := by
  unfold Lane.mask
  split <;> simp

/-- V_MASK publishes no syndrome where bits are left to fold (40_parity_validator.md R124). -/
theorem Lane.mask_syn_of_ne_one (hW : c.W ≠ 1) : (l.mask v).syn = l.syn := by simp [Lane.mask, hW]

/-- V_MASK publishes the one bit's accumulators where W = 1 (40_parity_validator.md R124). -/
theorem Lane.mask_syn_of_one (hW : c.W = 1) : (l.mask v).syn = packRows (l.mask v).acc := by simp [Lane.mask, hW]

theorem Lane.mask_n_of_one (hW : c.W = 1) : (l.mask v).n = l.n := by simp [Lane.mask, hW]

end Mask

section Reduce

variable {c : Config} (cycle i : Nat) {l : Lane c}

/-- A fold of a bit the row has (40_parity_validator.md R125). -/
theorem Lane.folded_get_of_lt (hn : l.n.toNat < c.W) (q : Fin c.R) :
    (l.folded cycle i).get q = (l.acc.get q ^^ (l.m.get q).getLsbD l.n.toNat) := by
  rw [Lane.folded, Bank.get_ofFn, maskBit, if_pos hn]

@[simp] theorem Lane.reduce_m : (l.reduce cycle i).m = l.m := by
  simp only [Lane.reduce]
  split <;> rfl

@[simp] theorem Lane.reduce_acc : (l.reduce cycle i).acc = l.folded cycle i := by
  simp only [Lane.reduce]
  split <;> rfl

/-- V_RED on the last bit publishes (40_parity_validator.md R125). -/
theorem Lane.reduce_of_last (hn : l.n.toNat = c.W - 1) :
    l.reduce cycle i =
      { l with acc := l.folded cycle i, syn := packRows (l.folded cycle i), vdone := true, vstage := .vidle } := by
  rw [Lane.reduce, if_pos hn]

/-- V_RED on any other bit counts (40_parity_validator.md R125). -/
theorem Lane.reduce_of_not_last (hn : l.n.toNat ≠ c.W - 1) :
    l.reduce cycle i = { l with acc := l.folded cycle i, n := nextCount c cycle i l.n } := by
  rw [Lane.reduce, if_neg hn]

/-- Wherever its width holds the result a lane's bit counter counts. -/
theorem nextCount_toNat_of_lt {n : BitVec c.nW} (hlt : n.toNat + 1 < 2 ^ c.nW) :
    (nextCount c cycle i n).toNat = n.toNat + 1 := by
  rw [nextCount, if_pos hlt, BitVec.toNat_add, BitVec.ofNat_eq_ofNat, one_toNat_nW, Nat.mod_eq_of_lt hlt]

end Reduce

/-- What a lane operation leaves of the orchestrator (40_parity_validator.md R122). -/
theorem sameOrch_mapLanes {c : Config} (r : Regs c) (f : Fin (c.W + 1) → Lane c → Lane c) :
    SameOrch r (r.mapLanes f) := ⟨⟨rfl, rfl, rfl, rfl, rfl, rfl⟩, rfl⟩

/-- Settles O27, lane by lane. -/
theorem resetAndAbortClearTheLanes : Obligations.ResetAndAbortClearTheLanes := by
  rintro i (rfl | rfl) s
  · exact ⟨_, exec_eq .vReset s, sameOrch_mapLanes _ _, fun k => by simp [effect, Lane.Cleared]⟩
  · exact ⟨_, exec_eq .vAbort s, sameOrch_mapLanes _ _, fun k => by simp [effect, Lane.Cleared]⟩

/-- Settles O28: with bits left to fold the lane is reducing, with none it is finished. -/
theorem maskLatchesTheCandidate : Obligations.MaskLatchesTheCandidate := by
  refine fun s => ⟨_, exec_eq .vMask s, sameOrch_mapLanes _ _, fun i => ?_⟩
  rw [effect, Regs.mapLanes_lanes]
  refine ⟨fun q => ⟨by simp, by simp⟩, fun hW => ?_, fun hW => ?_⟩
  · obtain ⟨hvstage, hvdone, hn, -⟩ := Lane.mask_reducing hW (s.regs.hyp.get i) (s.regs.lanes.get i)
    exact ⟨hn, hvdone, hvstage, Lane.mask_syn_of_ne_one _ _ (by omega)⟩
  · obtain ⟨hvstage, hvdone, -⟩ := Lane.mask_finished hW (s.regs.hyp.get i) (s.regs.lanes.get i)
    refine ⟨hvdone, hvstage, Lane.mask_n_of_one _ _ hW, fun q => ?_⟩
    rw [Lane.mask_syn_of_one _ _ hW, packRows_getLsbD, Lane.mask_acc]

/-- Settles O29, by whether the bit folded is the last. -/
theorem reduceFoldsOneBit : Obligations.ReduceFoldsOneBit := by
  refine fun s => ⟨_, exec_eq .vRed s, sameOrch_mapLanes _ _, fun i => ?_⟩
  rw [effect, Regs.mapLanes_lanes]
  refine ⟨Lane.reduce_m _ _, fun hn q => ?_, fun hlast => ?_, fun hmore => ?_⟩
  · rw [Lane.reduce_acc, Lane.folded_get_of_lt _ _ hn]
  · rw [Lane.reduce_of_last _ _ hlast]
    exact ⟨packRows_getLsbD _, rfl, rfl, rfl⟩
  · rw [Lane.reduce_of_not_last _ _ hmore]
    exact ⟨rfl, rfl, rfl, nextCount_toNat_of_lt _ _⟩

/-! ## Every operation -/

/-- Settles O31: `exec_eq` and `step_eq` answer a next state from every state. -/
theorem noOperationTraps : Obligations.NoOperationTraps :=
  ⟨fun i s => ⟨_, exec_eq i s⟩, fun s => ⟨_, step_eq s⟩⟩

section Writers

variable {c : Config} (cycle : Nat) (x : Codeword c.W) (r : Regs c) (i : Instr)

/-- The writers of the hypothesis slots (10_state.md R32). -/
theorem effect_hyp_writers : (effect cycle x r i).hyp = r.hyp ∨ i = .load ∨ i = .gen ∨ i = .flip := by
  cases i <;> simp [effect]

/-- Slot W has one writer (10_state.md R32). -/
theorem effect_received_writers : (effect cycle x r i).received = r.received ∨ i = .load := by
  cases i with
  | gen => exact .inl r.gen_received
  | flip => exact .inl r.flip_received
  | _ => simp [effect, Regs.received]

/-- The writers of the other slots (10_state.md R32). -/
theorem effect_slot_writers {k : Fin (c.W + 1)} (hk : k.val < c.W) :
    (effect cycle x r i).hyp.get k = r.hyp.get k ∨ i = .gen ∨ i = .flip := by
  cases i <;> simp [effect, hk]

/-- The writers of the stage (10_state.md R33). -/
theorem effect_stage_writers :
    (effect cycle x r i).stage = r.stage ∨
      i = .load ∨ i = .gen ∨ i = .flip ∨ i = .dispa ∨ i = .dispr ∨ i = .await ∨ i = .reset := by
  cases i <;> simp [effect]

/-- The pulse's setter and its clearers (10_state.md R35). -/
theorem effect_vstart_writers :
    (effect cycle x r i).vstart = r.vstart ∨ (i = .dispa ∧ (effect cycle x r i).vstart = true) ∨
      ((i = .dispr ∨ i = .load ∨ i = .reset) ∧ (effect cycle x r i).vstart = false) := by
  cases i <;> simp [effect]

/-- The counter's writer and its clearers (10_state.md R36). -/
theorem effect_tmo_writers :
    (effect cycle x r i).tmo = r.tmo ∨ i = .await ∨
      ((i = .load ∨ i = .reset) ∧ (effect cycle x r i).tmo = 0) := by
  cases i <;> simp [effect]

/-- The setter and the clearers of `done` (10_state.md R37). -/
theorem effect_done_writers :
    (effect cycle x r i).done = r.done ∨ (i = .await ∧ (effect cycle x r i).done = true) ∨
      ((i = .load ∨ i = .reset) ∧ (effect cycle x r i).done = false) := by
  cases i with
  | await => rcases await_cases cycle r with ⟨w, -, e⟩ | ⟨-, -, e⟩ | ⟨-, -, e⟩ <;> simp [effect, e]
  | _ => simp [effect]

/-- The setter and the clearers of `success` (10_state.md R38). -/
theorem effect_success_writers :
    (effect cycle x r i).success = r.success ∨
      (i = .await ∧ arbitrate r ≠ none ∧ (effect cycle x r i).success = true) ∨
      ((i = .load ∨ i = .reset) ∧ (effect cycle x r i).success = false) := by
  cases i with
  | await => rcases await_cases cycle r with ⟨w, h, e⟩ | ⟨-, -, e⟩ | ⟨-, -, e⟩ <;> simp [effect, *]
  | _ => simp [effect]

/-- The writer and the clearers of `dout` (10_state.md R39). -/
theorem effect_dout_writers :
    (effect cycle x r i).dout = r.dout ∨ (i = .await ∧ arbitrate r ≠ none) ∨
      ((i = .load ∨ i = .reset) ∧ (effect cycle x r i).dout = 0) := by
  cases i with
  | await => rcases await_cases cycle r with ⟨w, h, e⟩ | ⟨-, -, e⟩ | ⟨-, -, e⟩ <;> simp [effect, *]
  | _ => simp [effect]

variable (k : Fin (c.W + 1))

/-- The writer of a lane's masked rows (10_state.md R42). -/
theorem effect_m_writers : ((effect cycle x r i).lanes.get k).m = (r.lanes.get k).m ∨ i = .vMask := by
  cases i <;> simp [effect]

/-- The operations that write neither a lane's accumulators nor its counter (10_state.md R43, R44). -/
theorem effect_acc_n_writers :
    (((effect cycle x r i).lanes.get k).acc = (r.lanes.get k).acc ∧
      ((effect cycle x r i).lanes.get k).n = (r.lanes.get k).n) ∨ i = .vMask ∨ i = .vRed := by
  cases i <;> simp [effect]

/-- The writers of a lane's stage and completion signal (10_state.md R41, R46). -/
theorem effect_vstage_vdone_writers :
    (((effect cycle x r i).lanes.get k).vstage = (r.lanes.get k).vstage ∧
      ((effect cycle x r i).lanes.get k).vdone = (r.lanes.get k).vdone) ∨
      i = .vMask ∨ i = .vRed ∨ i = .vAbort ∨ i = .vReset ∨ i = .reset := by
  cases i <;> simp [effect]

/-- The writers of a lane's syndrome: the completing edge, and the clearers (10_state.md R45). -/
theorem effect_syn_writers :
    ((effect cycle x r i).lanes.get k).syn = (r.lanes.get k).syn ∨ (i = .vMask ∧ c.W = 1) ∨
      (i = .vRed ∧ (r.lanes.get k).n.toNat = c.W - 1) ∨
      ((i = .vAbort ∨ i = .vReset ∨ i = .reset) ∧ ((effect cycle x r i).lanes.get k).syn = 0) := by
  cases i with
  | vMask =>
    by_cases hW : c.W = 1
    · exact .inr (.inl ⟨rfl, hW⟩)
    · exact .inl (by rw [effect, Regs.mapLanes_lanes, Lane.mask_syn_of_ne_one _ _ hW])
  | vRed =>
    by_cases hlast : (r.lanes.get k).n.toNat = c.W - 1
    · exact .inr (.inr (.inl ⟨rfl, hlast⟩))
    · exact .inl (by rw [effect, Regs.mapLanes_lanes, Lane.reduce_of_not_last _ _ hlast])
  | _ => simp [effect]

end Writers

/-- Settles O32, register by register. -/
theorem onlyTheNamedWritersWrite : Obligations.OnlyTheNamedWritersWrite := by
  intro i s r hexec
  rw [exec_inv hexec]
  refine ⟨(effect_hyp_writers _ _ _ _).resolve_left, (effect_received_writers _ _ _ _).resolve_left,
    fun k hk => (effect_slot_writers _ _ _ _ hk).resolve_left, (effect_stage_writers _ _ _ _).resolve_left,
    (effect_vstart_writers _ _ _ _).resolve_left, (effect_tmo_writers _ _ _ _).resolve_left,
    (effect_done_writers _ _ _ _).resolve_left, (effect_success_writers _ _ _ _).resolve_left,
    (effect_dout_writers _ _ _ _).resolve_left, fun k => ⟨(effect_m_writers _ _ _ _ _).resolve_left, fun hacc => ?_,
    fun hn => ?_, fun hflags => ?_, (effect_syn_writers _ _ _ _ _).resolve_left⟩⟩
  · exact (effect_acc_n_writers _ _ _ _ k).resolve_left fun h => hacc h.1
  · exact (effect_acc_n_writers _ _ _ _ k).resolve_left fun h => hn h.2
  · exact (effect_vstage_vdone_writers _ _ _ _ k).resolve_left fun ⟨hvstage, hvdone⟩ =>
      hflags.elim (fun h => h hvstage) fun h => h hvdone

end Sys2Proof.Machine
end

section
/-!
SUPPORT. The proofs about one edge (41_orchestrator.md section 1, 60_exceptions.md section 3, 70_reset_and_hazards.md section
4): the operations it performs, where the stage goes, when `data_input` is read, and the four invariants of 40 to 42 that
hold by themselves.
-/

namespace Sys2Proof.Machine

open Sys2Proof

/-! ## The operations an edge performs -/

/-- A control word selects what it decodes to. -/
theorem selected_of_decode {f : Format} {w : Nat} {i : Instr} (h : decode f w = .ok i) : selected f w = i := by
  simp [selected, h]

/-- The orchestrator's part of an edge is the effect of its operation (41_orchestrator.md R150). -/
theorem orchAfter_eq_effect (s : State) :
    orchAfter s.cycle s.rst s.start s.dataInput s.regs = effect s.cycle s.dataInput s.regs s.orchInstr := by
  rw [orchInstr_eq, orchAfter]
  cases s.rst <;> cases s.start <;> rfl

/-- Settles O33: the edge takes each agent's registers from the effect of its own operation. -/
theorem stepRunsTheDecodedOperations : Obligations.StepRunsTheDecodedOperations := by
  intro s o ho
  obtain rfl : s.orchInstr = o := selected_of_decode ho
  refine ⟨_, _, step_eq s, exec_eq _ s, ?_, fun i l hl => ⟨_, exec_eq l s, ?_⟩⟩
  · rw [← orchAfter_eq_effect]
    exact ⟨⟨rfl, rfl, rfl, rfl, rfl, rfl⟩, rfl⟩
  · obtain rfl : s.laneInstr i = l := selected_of_decode hl
    rw [regsAfter_lanes, effect_laneInstr]

/-- An orchestrator control word is the word of its own bits (30_encoding.md R94). -/
theorem ocw_of_bits :
    ∀ w < 2 ^ Format.ocw.bits,
      (ocw (w.testBit 4) (w.testBit 3) (Stage.ofCode (BitVec.ofNat 3 w))).toNat = w := by decide

/-- A lane control word is the word of its own bits (30_encoding.md R96). -/
theorem lcw_of_bits :
    ∀ w < 2 ^ Format.lcw.bits,
      (lcw (w.testBit 3) (w.testBit 2) (w.testBit 1) (VStage.ofCode (w.testBit 0))).toNat = w := by decide

/-- What the decoder accepts fits its format. -/
theorem lt_of_decode {f : Format} {w : Nat} {i : Instr} (h : decode f w = .ok i) : w < 2 ^ f.bits := by
  by_contra hwide
  rw [decode_of_not_fits (decide_eq_false hwide)] at h
  cases h

/-- The host's question is answered by the decoder of the format the number of bits names (log 11). -/
theorem decode_of_decodeTableWord {nbits w : Nat} {i : Instr} (h : decodeTableWord nbits w = some i) :
    decode (formatOfBits nbits) w = .ok i := by
  rw [decodeTableWord] at h
  cases hdecode : decode (formatOfBits nbits) w with
  | ok j =>
    rw [hdecode] at h
    exact congrArg Except.ok (Option.some.inj h)
  | error e => simp [hdecode, Except.toOption] at h

/-- Settles O34: the bits placed are the word's own, so the control word formed at the edge is the word. -/
theorem placedControlWordIsSelected : Obligations.PlacedControlWordIsSelected := by
  intro s nbits w i h
  have hdecode := decode_of_decodeTableWord h
  constructor
  · intro hformat
    have hocw : formatOfBits nbits = .ocw := if_neg hformat
    rw [hocw] at hdecode
    have hword : (s.withFetchWord nbits w).ocw.toNat = w := by
      obtain ⟨hrst, hstart, -⟩ := State.inputs_of_stim (s := s.withFetchWord nbits w) rfl
      rw [State.ocw, hrst, hstart]
      simp only [hocw, placedRegs]
      exact ocw_of_bits w (lt_of_decode hdecode)
    rw [State.orchInstr, hword, selected_of_decode hdecode]
  · intro hformat k
    have hlcw : formatOfBits nbits = .lcw := if_pos hformat
    rw [hlcw] at hdecode
    have hword : ((s.withFetchWord nbits w).lcw k).toNat = w := by
      obtain ⟨hrst, hstart, -⟩ := State.inputs_of_stim (s := s.withFetchWord nbits w) rfl
      rw [State.lcw, hrst, hstart]
      simp only [hlcw, placedRegs, Regs.withLaneBits, Regs.mapLanes, Bank.get_ofFn]
      exact lcw_of_bits w (lt_of_decode hdecode)
    rw [State.laneInstr, hword, selected_of_decode hdecode]

/-! ## Where the stage goes -/

/-- Settles O35: the stage an edge leaves is the one the selected operation writes. -/
theorem stageTransitionTable : Obligations.StageTransitionTable := by
  intro s r hstep
  rw [step_inv hstep, regsAfter_stage]
  refine ⟨fun hrst => by simp [hrst], fun hrst hstart => by simp [hrst, hstart], fun hrst hstart => ?_⟩
  rw [hrst, hstart, orchAfter_run]
  refine ⟨fun h => ?_, fun h => ?_, fun h => ?_, fun h => ?_, fun h => ?_, fun h => ?_, fun h => ?_⟩
  case refine_6 => simpa [h, stageOp, effect] using await_stage s.cycle s.regs
  all_goals simp [h, stageOp, effect]

/-- Settles O26: no operation writes the reserved code, and its own writes nothing. -/
theorem reservedStageHolds : Obligations.ReservedStageHolds := by
  refine ⟨exec_eq .reservedStage7, fun s r hstep => ?_⟩
  rw [step_inv hstep, regsAfter_stage]
  cases s.rst with
  | true => simp
  | false =>
    cases s.start with
    | true => simp
    | false =>
      rw [orchAfter_run]
      cases hstage : s.regs.stage with
      | await => rcases await_stage s.cycle s.regs with h | h <;> simp [stageOp, effect, h]
      | reserved7 => simp [stageOp, effect, hstage]
      | idle | gen | flip | dispa | dispr | term => simp [stageOp, effect, hstage]

/-- Settles O37: with rst or start an edge leaves nothing of a decode. -/
theorem resetThenStartTakePriority : Obligations.ResetThenStartTakePriority := by
  refine fun s => ⟨_, step_eq s, fun hrst => ?_, fun hrst hstart => ?_⟩
  · rw [hrst]
    obtain ⟨houtputs, htmo, hlanes⟩ := regsAfter_rst_undispatched s.cycle s.start s.dataInput s.regs
    exact ⟨rfl, houtputs, rfl, htmo, rfl, hlanes⟩
  · rw [hrst, hstart]
    obtain ⟨houtputs, htmo, hlanes⟩ := regsAfter_start_undispatched s.cycle s.dataInput s.regs
    exact ⟨rfl, houtputs, rfl, htmo, s.regs.load_received _, hlanes⟩

/-! ## When `data_input` is read -/

/-- Only LOAD reads `data_input` (30_encoding.md R97). -/
theorem effect_data_irrelevant {c : Config} (cycle : Nat) (x y : Codeword c.W) (r : Regs c) {i : Instr} (h : i ≠ .load) :
    effect cycle x r i = effect cycle y r i := by
  cases i with
  | load => exact absurd rfl h
  | _ => rfl

/-- An edge that is not a start edge does not read `data_input` (70_reset_and_hazards.md R245). -/
theorem regsAfter_data_irrelevant {c : Config} (cycle : Nat) {rst start : Bool} (x y : Codeword c.W) (r : Regs c)
    (h : rst = true ∨ start = false) : regsAfter cycle rst start x r = regsAfter cycle rst start y r := by
  have horch : orchAfter cycle rst start x r = orchAfter cycle rst start y r := by
    rcases h with rfl | rfl
    · rfl
    · cases rst with
      | true => rfl
      | false => exact effect_data_irrelevant cycle x y r (by cases r.stage <;> simp [stageOp])
  rw [regsAfter, horch, regsAfter]

/-- Of start edges in a row the last counts (41_orchestrator.md R151). -/
theorem run_starts {c : Config} (n : Nat) (r : Regs c) (xs : List (Codeword c.W)) (y : Codeword c.W)
    (p : List (BitVec (c.W + 2))) :
    ∃ q : Regs c, run (xs.length + 1) ⟨c, r, xs.map startWord ++ startWord y :: p, n⟩ =
        .next (⟨c, q, p, n + (xs.length + 1)⟩ : State) ∧ q.received = y ∧ q.stage = .gen := by
  induction xs generalizing n r with
  | nil =>
    refine ⟨regsAfter n false true y r, ?_, Regs.load_received _ _, rfl⟩
    rw [List.length_nil, List.map_nil, List.nil_append, run_cons, startWord, scwRst_scw, scwStart_scw, scwData_scw]
    rfl
  | cons x xs ih =>
    obtain ⟨q, hrun, hresult⟩ := ih (n + 1) (regsAfter n false true x r)
    refine ⟨q, ?_, hresult⟩
    rw [List.map_cons, List.cons_append, List.length_cons, run_cons, ← Nat.add_assoc n, Nat.add_right_comm n _ 1]
    simpa [startWord] using hrun

/-- Settles O36: only LOAD reads `data_input`, and each LOAD overwrites the last. -/
theorem dataInputIsSampledOnlyAtStartEdges : Obligations.DataInputIsSampledOnlyAtStartEdges := by
  refine fun s x y xs p => ⟨fun rst start h => ?_, ?_, run_starts s.cycle s.regs xs y p⟩
  · refine ⟨regsAfter s.cycle rst start x s.regs, step_of_stim (s := s.withStim _) rfl, ?_⟩
    rw [regsAfter_data_irrelevant s.cycle x y s.regs h]
    exact step_of_stim (s := s.withStim _) rfl
  · exact ⟨_, step_of_stim (s := s.withStim _) rfl, Regs.load_received _ _⟩

/-! ## Reset, and the invariants that hold by themselves -/

/-- Settles O38. The lanes are cleared by `undispatched_atReset`. -/
theorem resetStateValues : Obligations.ResetStateValues := by
  obtain ⟨houtputs, htmo, hcleared⟩ := undispatched_atReset Config.example6
  exact ⟨rfl, rfl, rfl, htmo, houtputs, hcleared, rfl, rfl⟩

section OneEdge

variable {c : Config} (cycle : Nat) (x : Codeword c.W) {r : Regs c}

/-- What RESET, LOAD and the stage's operation establish, every edge establishes in the orchestrator. -/
theorem orchAfter_of_operations {P : Regs c → Prop} (hreset : P r.reset) (hload : P (r.load x))
    (hrun : P (effect cycle x r (stageOp r.stage))) (rst start : Bool) : P (orchAfter cycle rst start x r) :=
  match rst, start with
  | true, _ => hreset
  | false, true => hload
  | false, false => hrun

/-- The stages' operations raise the pulse on the way into DISPR and drop it on the way out. -/
theorem pulseInv_effect (h : PulseInv r) : PulseInv (effect cycle x r (stageOp r.stage)) := by
  unfold PulseInv at *
  cases hstage : r.stage with
  | await => rcases await_stage cycle r with e | e <;> simp [stageOp, effect, e, h, hstage]
  | idle | gen | flip | dispa | dispr | term | reserved7 => simp [stageOp, effect, h, hstage]

/-- The stages' operations keep the outcome codes: AWAIT raises `success` only with `done` (60_exceptions.md R211). -/
theorem outcomeInv_effect (h : OutcomeInv r) : OutcomeInv (effect cycle x r (stageOp r.stage)) := by
  obtain ⟨hdone, hsuccess, hdout⟩ := h
  unfold OutcomeInv
  cases hstage : r.stage with
  | await =>
    rcases await_cases cycle r with ⟨w, -, e⟩ | ⟨-, -, e⟩ | ⟨-, -, e⟩
    · simp [stageOp, effect, e]
    · simpa [stageOp, effect, e] using hdout
    · simpa [stageOp, effect, e, hdone, hstage] using And.intro hsuccess hdout
  | idle | gen | flip | dispa | dispr | term | reserved7 =>
    simpa [stageOp, effect, hdone, hstage] using And.intro hsuccess hdout

/-- Outside AWAIT the stages' operations leave the counter (42_arbitration.md R182). -/
theorem effect_tmo_of_ne_await (hstage : r.stage ≠ .await) : (effect cycle x r (stageOp r.stage)).tmo = r.tmo := by
  cases h : r.stage with
  | await => exact absurd h hstage
  | idle | gen | flip | dispa | dispr | term | reserved7 => simp [stageOp, effect]

/-- An AWAIT edge counts exactly one more (10_state.md R36, 42_arbitration.md R182). -/
theorem await_tmo_toNat (h : CounterInv r) (hstage : r.stage = .await) :
    (effect cycle x r (stageOp r.stage)).tmo.toNat = r.tmo.toNat + 1 := by
  have hrange : r.tmo.toNat ≤ c.tmoBound + 1 := h.2 (by simp [hstage])
  simp only [hstage, stageOp, effect, await_tmo]
  exact nextTmo_toNat hrange

/-- The stages' operations keep the counter's range: only the edge into TERM counts past the bound by two. -/
theorem counterInv_effect (h : CounterInv r) : CounterInv (effect cycle x r (stageOp r.stage)) := by
  obtain ⟨hmax, hrange⟩ := h
  by_cases hstage : r.stage = .await
  · have hcount := await_tmo_toNat cycle x ⟨hmax, hrange⟩ hstage
    have hbound := hrange (by simp [hstage])
    refine ⟨by omega, fun hterm => ?_⟩
    rcases await_cases cycle r with ⟨w, -, e⟩ | ⟨-, -, e⟩ | ⟨-, hwait, -⟩
    · simp [hstage, stageOp, effect, e] at hterm
    · simp [hstage, stageOp, effect, e] at hterm
    · omega
  · have hkeep := effect_tmo_of_ne_await cycle x hstage
    refine ⟨by rwa [hkeep], fun hterm => ?_⟩
    rw [hkeep]
    exact hrange fun h => hterm (by simp [h, stageOp, effect])

end OneEdge

/-- Settles O40: `vstart` and the stage are written together, by every operation. -/
theorem pulseOnlyInDispr : Obligations.PulseOnlyInDispr := by
  intro s r hstep hpulse
  rw [step_inv hstep]
  exact orchAfter_of_operations (P := PulseInv) s.cycle s.dataInput rfl rfl (pulseInv_effect _ _ hpulse) _ _

/-- Settles O42: the outcome registers are cleared together and only AWAIT sets them. -/
theorem outcomeCodesStayLegal : Obligations.OutcomeCodesStayLegal := by
  intro s r hstep houtcome
  rw [step_inv hstep]
  exact orchAfter_of_operations (P := OutcomeInv) s.cycle s.dataInput (by simp [OutcomeInv]) (by simp [OutcomeInv])
    (outcomeInv_effect _ _ houtcome) _ _

/-- A cleared counter is in range. -/
theorem counterInv_of_tmo_zero {c : Config} {r : Regs c} (h : r.tmo = 0) : CounterInv r := by
  have hzero : r.tmo.toNat = 0 := by simp [h]
  exact ⟨by omega, fun _ => by omega⟩

/-- Settles O43: rst and start clear the counter, and of the stages' operations AWAIT alone counts. -/
theorem timeoutCounterNeverWraps : Obligations.TimeoutCounterNeverWraps := by
  intro s r hstep hcounter
  rw [step_inv hstep]
  cases s.rst with
  | true => exact ⟨counterInv_of_tmo_zero rfl, fun _ => rfl, by simp⟩
  | false =>
    cases s.start with
    | true => exact ⟨counterInv_of_tmo_zero rfl, fun _ => rfl, by simp⟩
    | false =>
      exact ⟨counterInv_effect s.cycle s.dataInput hcounter, by simp, fun _ _ =>
        ⟨await_tmo_toNat s.cycle s.dataInput hcounter, effect_tmo_of_ne_await s.cycle s.dataInput⟩⟩

section LockStepEdges

variable {c : Config}

/-- Two lanes in lock-step: what `LockStep` says of each pair. -/
def Lane.InStep (l m : Lane c) : Prop :=
  l.vstage = m.vstage ∧ l.vdone = m.vdone ∧
    (l.vstage = .vred → l.n.toNat = m.n.toNat ∧ 1 ≤ l.n.toNat ∧ l.n.toNat ≤ c.W - 1)

theorem lockStep_iff {r : Regs c} : LockStep r ↔ ∀ i j, (r.lanes.get i).InStep (r.lanes.get j) := Iff.rfl

/-- Two idle lanes with the same completion signal are in lock-step, whatever their counters hold. -/
theorem Lane.inStep_of_idle {l m : Lane c} (hl : l.vstage = .vidle) (hm : m.vstage = .vidle) (hdone : l.vdone = m.vdone) :
    l.InStep m :=
  ⟨hl.trans hm.symm, hdone, fun h => by simp [hl] at h⟩

/-- V_MASK brings any two lanes into lock-step (40_parity_validator.md R124). -/
theorem Lane.mask_inStep (v u : Codeword c.W) (l m : Lane c) : (l.mask v).InStep (m.mask u) := by
  have hW := c.W_pos
  by_cases hone : c.W = 1
  · obtain ⟨hl, hldone, -⟩ := l.mask_finished hone v
    obtain ⟨hm, hmdone, -⟩ := m.mask_finished hone u
    exact Lane.inStep_of_idle hl hm (hldone.trans hmdone.symm)
  · obtain ⟨hl, hldone, hln, -⟩ := l.mask_reducing (by omega) v
    obtain ⟨hm, hmdone, hmn, -⟩ := m.mask_reducing (by omega) u
    exact ⟨hl.trans hm.symm, hldone.trans hmdone.symm, fun _ => by omega⟩

/-- V_RED keeps two reducing lanes in lock-step: they reach the last bit together (40_parity_validator.md R125). -/
theorem Lane.reduce_inStep {l m : Lane c} (h : l.InStep m) (hred : l.vstage = .vred) (cycle i j : Nat) :
    (l.reduce cycle i).InStep (m.reduce cycle j) := by
  obtain ⟨hstage, hdone, hcount⟩ := h
  obtain ⟨hn, hmin, hmax⟩ := hcount hred
  by_cases hlast : l.n.toNat = c.W - 1
  · rw [Lane.reduce_of_last _ _ hlast, Lane.reduce_of_last _ _ (hn ▸ hlast)]
    exact Lane.inStep_of_idle rfl rfl rfl
  · rw [Lane.reduce_of_not_last _ _ hlast, Lane.reduce_of_not_last _ _ (hn ▸ hlast)]
    refine ⟨hstage, hdone, fun _ => ?_⟩
    have hl : (nextCount c cycle i l.n).toNat = l.n.toNat + 1 := nextCount_toNat (by omega)
    have hm : (nextCount c cycle j m.n).toNat = m.n.toNat + 1 := nextCount_toNat (by omega)
    exact ⟨by rw [hl, hm, hn], by rw [hl]; omega, by rw [hl]; omega⟩

/-- Every edge keeps two lanes in lock-step (40_parity_validator.md R123). -/
theorem laneAfter_inStep {r : Regs c} {i j : Fin (c.W + 1)} (h : (r.lanes.get i).InStep (r.lanes.get j)) (cycle : Nat)
    (rst start : Bool) : (laneAfter cycle rst start r i).InStep (laneAfter cycle rst start r j) := by
  match rst, start with
  | true, _ => exact Lane.inStep_of_idle rfl rfl rfl
  | false, true => exact Lane.inStep_of_idle rfl rfl rfl
  | false, false =>
    cases hpulse : r.vstart with
    | true =>
      rw [laneAfter_mask cycle hpulse, laneAfter_mask cycle hpulse]
      exact Lane.mask_inStep _ _ _ _
    | false =>
      have hstage := h.1
      cases hi : (r.lanes.get i).vstage with
      | vred =>
        rw [laneAfter_reduce cycle hpulse hi, laneAfter_reduce cycle hpulse (hstage ▸ hi)]
        exact Lane.reduce_inStep h hi _ _ _
      | vidle => rwa [laneAfter_hold cycle hpulse hi, laneAfter_hold cycle hpulse (hstage ▸ hi)]

end LockStepEdges

/-- Settles O41, for each pair of lanes. -/
theorem lanesStayInLockStep : Obligations.LanesStayInLockStep := by
  intro s r hstep hlock
  rw [lockStep_iff] at *
  intro i j
  rw [step_inv hstep, regsAfter_lanes, regsAfter_lanes]
  exact laneAfter_inStep (hlock i j) s.cycle s.rst s.start

end Sys2Proof.Machine
end
